-- ==== Sys2Proof/Word.lean ====
section
/-! DEFINITION. The value types of the MIQRO synthesis block: the 32-bit word, the 64-bit event time,
a storage cell that is either a value or the marker UNWRITTEN (rule R20), and a complex pair (rule R12).
The types only; every operation over them stands in Decode.lean or under Machine/. -/

namespace Sys2Proof

/-- The data word of the block, a `u32` (rules R7, R42). -/
abbrev Word := BitVec 32

/-- An event time or a sample time, an `i64` (rules R7, R10, R60): read as a number by `BitVec.toInt`. -/
abbrev Time := BitVec 64

/-- A register or memory cell of `w` bits: it holds a value or the spec's own marker `UNWRITTEN`
(rules R20, R31). The marker is architectural: reading it raises the fault `Unwritten` (rule R207). -/
inductive Reg (w : Nat) where
  /-- Nothing has been written since reset. -/
  | unwritten
  /-- The value last written. -/
  | value (v : BitVec w)
deriving DecidableEq, Repr

/-- A complex value as the pair `(re, im)` of rule R12. -/
structure Cx (K : Type) where
  re : K
  im : K
deriving DecidableEq, Repr, Inhabited

end Sys2Proof
end

