-- ==== Sys2Proof/Config.lean ====
section
/-! DEFINITION. What an implementation fixes (rule R7): the sizes the spec gives, the parameters it leaves OPEN as
plain data (register addresses, memory-select polarity, clock ratio), and the two numeric functions it leaves
OPEN (`CIS`, `QUANT_OUT`) as an argument over any number field. -/

namespace Sys2Proof

/-- The parameters of rule R7 that are plain data. State carries one such record, which no step changes, so a
statement about every state is a statement about every parameter choice (assumption 1). -/
structure Config where
  /-- `ADDR_MEM_ADDR`, the memory address register (source tag `A`). -/
  addrMemAddr : Word
  /-- `ADDR_MEM_DATA`, the memory data register (source tag `D`). -/
  addrMemData : Word
  /-- `ADDR_CFG0`. -/
  addrCfg0 : Word
  /-- `ADDR_CFG1`. -/
  addrCfg1 : Word
  /-- `ADDR_CFG2`. -/
  addrCfg2 : Word
  /-- `PROFILE_SEL`, the value of cursor bit 14 that selects profile memory. -/
  profileSel : BitVec 1
  /-- `CLOCK_RATIO`, sample-time units per virtual clock tick. -/
  clockRatio : ℚ
deriving DecidableEq, Repr

/-- The record `State.reset` carries. DESIGN CHOICE (unsafe, assumption 1) for the five addresses and the clock
ratio, which the spec leaves OPEN (decisions D2, D13); `profileSel = 1` is the spec's value (rule R7). -/
def Config.atReset : Config where
  addrMemAddr := 0x00#32
  addrMemData := 0x04#32
  addrCfg0 := 0x08#32
  addrCfg1 := 0x0C#32
  addrCfg2 := 0x10#32
  profileSel := 1#1
  clockRatio := 1

/-- `N_OSC`: oscillators (rule R7). -/
abbrev Config.nOsc : Nat := 16

/-- `N_PROF`: profiles per oscillator (rule R7). -/
abbrev Config.nProf : Nat := 32

/-- `N_WIN` and `PROF_WORDS`: words in each memory (rules R7, R41). -/
abbrev Config.memWords : Nat := 1024

/-- The numeric parameters of rule R7 over a number type `K`: the phase-to-complex function `CIS` (rule R165)
and the output quantiser `QUANT_OUT` (rule R185), a function of the sample alone (assumption 3). The machine fixes
neither: a result is exact data whose value is taken under any such record, over any field, the real numbers of
`CIS_REF` among them (rules R7, R12; assumption 2). -/
structure Numerics (K : Type) where
  cis : BitVec 32 → Cx K
  quantOut : Cx K → Cx K

/-- The named property `CIS_QUARTER` of rule R165: exact at the four quarter turns. -/
def Numerics.Quarter {K : Type} [Field K] (num : Numerics K) : Prop :=
  num.cis 0x00000000#32 = ⟨1, 0⟩ ∧ num.cis 0x40000000#32 = ⟨0, 1⟩ ∧
  num.cis 0x80000000#32 = ⟨-1, 0⟩ ∧ num.cis 0xC0000000#32 = ⟨0, -1⟩

/-- The reference of `QUANT_OUT` (rule R185): the identity. -/
def Numerics.Exact {K : Type} (num : Numerics K) : Prop :=
  ∀ z, num.quantOut z = z

/-- The named property `CIS_REF` of rule R165, over the real numbers: `exp(i * 2*pi * theta / 2^32)`. -/
def Numerics.Reference (num : Numerics ℝ) : Prop :=
  ∀ theta : BitVec 32, num.cis theta =
    ⟨Real.cos (2 * Real.pi * (theta.toNat : ℝ) / 2 ^ 32), Real.sin (2 * Real.pi * (theta.toNat : ℝ) / 2 ^ 32)⟩

end Sys2Proof
end

