-- ==== Sys2Proof/Syntax.lean ====
section
/-! DEFINITION. What the host writes and what the block makes of it: the five registers (rule R61), the write event
(rule R60), the eight fault causes (rule R200) and the operations, one constructor per row of the opcode table. -/

namespace Sys2Proof

/-- The five write-only registers of rule R61. -/
inductive Register where
  | memAddr
  | memData
  | cfg0
  | cfg1
  | cfg2
deriving DecidableEq, Repr

/-- One write event, the immutable triple of rule R60. A value outside the three types is no event. -/
structure Event where
  time : Time
  address : Word
  data : Word
deriving DecidableEq, Repr

/-- The fault causes of rule R200. -/
inductive Cause where
  /-- Data write to a channel other than 0 (rule R201). -/
  | unsupportedChannel
  /-- Write to an address that is none of the five registers (rule R202). -/
  | unknownAddress
  /-- Window header without both markers (rule R203). -/
  | unsupportedWindowSegment
  /-- Reconstructed length differs from the required one (rule R204). -/
  | internalConsistency
  /-- Word address or window end beyond word 1023 (rule R205). -/
  | addressRange
  /-- Reserved data or header bits set (rule R206). -/
  | reservedBits
  /-- Read of a cell that holds `UNWRITTEN` (rule R207). -/
  | unwritten
  /-- Sample time not an integer or outside `i64` (rule R208). -/
  | sampleTimeInvalid
deriving DecidableEq, Repr

/-- The operations of the block: one constructor per row of the opcode table. Each carries the event's time
and its data in the fields of its format (rules R62 to R69). -/
inductive Instr where
  /-- `WR_MEM_ADDR`, format `CUR` (rules R62, R103). -/
  | wrMemAddr (time : Time) (chan : BitVec 17) (msel : BitVec 1) (waddr : BitVec 14)
  /-- `WR_MEM_DATA.PROF`: the raw word, format `FREQ` or `AMPPH` by the cursor (rules R63, R64, R105). -/
  | wrMemDataProf (time : Time) (data : Word)
  /-- `WR_MEM_DATA.WIN`: the raw word, format `HDR` or `IQ` by its later use (rules R65, R66, R106). -/
  | wrMemDataWin (time : Time) (data : Word)
  /-- `WR_CFG0`, format `CFG0` (rules R67, R187); `rsvd` is data bits 31:30. -/
  | wrCfg0 (time : Time) (start : BitVec 10) (q0 q1 q2 q3 : BitVec 5) (rsvd : BitVec 2)
  /-- `WR_CFG1`, format `CFG1` (rules R68, R107); `rsvd` is data bits 31:30. -/
  | wrCfg1 (time : Time) (q4 q5 q6 q7 q8 q9 : BitVec 5) (rsvd : BitVec 2)
  /-- `WR_CFG2`, format `CFG2` (rules R69, R108); `rsvd` is data bits 31:30. -/
  | wrCfg2 (time : Time) (q10 q11 q12 q13 q14 q15 : BitVec 5) (rsvd : BitVec 2)
deriving DecidableEq, Repr

end Sys2Proof
end

