-- ==== Sys2Proof/WellFormed.lean ====
section
/-! DEFINITION. The checks on what is given to the block: a parameter record (rules R7, R8) and an operation's
operands (rules R67 to R69). -/

namespace Sys2Proof

/-- The five register addresses, in the order of rule R61. -/
def Config.addresses (c : Config) : List Word :=
  [c.addrMemAddr, c.addrMemData, c.addrCfg0, c.addrCfg1, c.addrCfg2]

/-- A parameter record is well formed when the five addresses are pairwise distinct (rule R8) and the clock
ratio is positive (rule R7). An ill-formed one is refused, for the ratio by the model's choice (assumption 22). -/
def Config.wf (c : Config) : Bool :=
  decide c.addresses.Nodup && decide (0 < c.clockRatio)

/-- An operation is well formed when its reserved data bits are 0 (rules R67, R68, R69). An operation that is not
is still decoded and run: it raises `ReservedBits` (rule R206). -/
def Instr.wf : Instr → Bool
  | .wrMemAddr _ _ _ _ => true
  | .wrMemDataProf _ _ => true
  | .wrMemDataWin _ _ => true
  | .wrCfg0 _ _ _ _ _ _ rsvd => rsvd == 0#2
  | .wrCfg1 _ _ _ _ _ _ _ rsvd => rsvd == 0#2
  | .wrCfg2 _ _ _ _ _ _ _ rsvd => rsvd == 0#2

end Sys2Proof
end

