-- ==== Sys2Proof/Decode.lean ====
section
/-! DEFINITION. From events to operations and back: the address decode (rule R61), the second decode of a data write
by the cursor (rule R76), the encoder over the same formats (rules R62 to R69), and the bit image of an event that
stands in for the opcode table's words (assumption 9). -/

namespace Sys2Proof

/-- The bus address of a register (rule R61). -/
def Config.addressOf (c : Config) : Register → Word
  | .memAddr => c.addrMemAddr
  | .memData => c.addrMemData
  | .cfg0 => c.addrCfg0
  | .cfg1 => c.addrCfg1
  | .cfg2 => c.addrCfg2

/-- The register an address selects, if any (rule R61). -/
def Config.registerAt (c : Config) (address : Word) : Option Register :=
  if address = c.addrMemAddr then some .memAddr
  else if address = c.addrMemData then some .memData
  else if address = c.addrCfg0 then some .cfg0
  else if address = c.addrCfg1 then some .cfg1
  else if address = c.addrCfg2 then some .cfg2
  else none

/-- `CHAN = CURSOR[31:15]` (rules R21, R70). -/
def cursorChan (c : Word) : BitVec 17 := c.extractLsb' 15 17

/-- `MSEL = CURSOR[14]` (rules R21, R70). -/
def cursorMsel (c : Word) : BitVec 1 := c.extractLsb' 14 1

/-- `WADDR = CURSOR[13:0]` (rules R21, R70). -/
def cursorWaddr (c : Word) : BitVec 14 := c.extractLsb' 0 14

/-- The checks of rule R104 on the cursor, in the order of rule R212: the cursor's value when it is written, names
channel 0 and a word below 1024; else the fault's cause. -/
def checkedCursor : Reg 32 → Except Cause Word
  | .unwritten => .error .unwritten
  | .value c =>
    if cursorChan c ≠ 0#17 then .error .unsupportedChannel
    else if 1024 ≤ (cursorWaddr c).toNat then .error .addressRange
    else .ok c

/-- Field `k` of format `CFG1` and `CFG2`: data bits `5k+4 : 5k` (rules R68, R69). -/
def cfgField (data : Word) (k : Nat) : BitVec 5 := data.extractLsb' (5 * k) 5

/-- Field `k` of format `CFG0`: data bits `14+5k : 10+5k` (rule R67). -/
def cfg0Field (data : Word) (k : Nat) : BitVec 5 := data.extractLsb' (10 + 5 * k) 5

/-- The reserved data bits 31:30 of the three configuration formats (rules R67 to R69). -/
def cfgRsvd (data : Word) : BitVec 2 := data.extractLsb' 30 2

/-- `start = data[9:0]` of format `CFG0` (rules R67, R181). -/
def cfg0Start (data : Word) : BitVec 10 := data.extractLsb' 0 10

/-- The operation an event is, given the parameters and the cursor before it: by address, and for a data write
again by the cursor (rules R61, R76). An event that is no operation is rejected with the cause it raises. -/
def decode (c : Config) (cursor : Reg 32) (ev : Event) : Except Cause Instr :=
  match c.registerAt ev.address with
  | none => .error .unknownAddress
  | some .memAddr => .ok (.wrMemAddr ev.time (cursorChan ev.data) (cursorMsel ev.data) (cursorWaddr ev.data))
  | some .memData =>
    match checkedCursor cursor with
    | .error cause => .error cause
    | .ok cur =>
      if cursorMsel cur = c.profileSel then .ok (.wrMemDataProf ev.time ev.data)
      else .ok (.wrMemDataWin ev.time ev.data)
  | some .cfg0 =>
    .ok (.wrCfg0 ev.time (cfg0Start ev.data) (cfg0Field ev.data 0) (cfg0Field ev.data 1) (cfg0Field ev.data 2)
      (cfg0Field ev.data 3) (cfgRsvd ev.data))
  | some .cfg1 =>
    .ok (.wrCfg1 ev.time (cfgField ev.data 0) (cfgField ev.data 1) (cfgField ev.data 2) (cfgField ev.data 3)
      (cfgField ev.data 4) (cfgField ev.data 5) (cfgRsvd ev.data))
  | some .cfg2 =>
    .ok (.wrCfg2 ev.time (cfgField ev.data 0) (cfgField ev.data 1) (cfgField ev.data 2) (cfgField ev.data 3)
      (cfgField ev.data 4) (cfgField ev.data 5) (cfgRsvd ev.data))

/-- The word of format `CUR` (rule R62). -/
def curWord (chan : BitVec 17) (msel : BitVec 1) (waddr : BitVec 14) : Word :=
  chan ++ msel ++ waddr

/-- The word of format `CFG0` (rule R67). -/
def cfg0Word (start : BitVec 10) (q0 q1 q2 q3 : BitVec 5) (rsvd : BitVec 2) : Word :=
  rsvd ++ q3 ++ q2 ++ q1 ++ q0 ++ start

/-- The word of formats `CFG1` and `CFG2`, lowest field first (rules R68, R69). -/
def cfgWord (a b c d e f : BitVec 5) (rsvd : BitVec 2) : Word :=
  rsvd ++ f ++ e ++ d ++ c ++ b ++ a

/-- The register an operation writes (rule R61). -/
def Instr.register : Instr → Register
  | .wrMemAddr _ _ _ _ => .memAddr
  | .wrMemDataProf _ _ => .memData
  | .wrMemDataWin _ _ => .memData
  | .wrCfg0 _ _ _ _ _ _ _ => .cfg0
  | .wrCfg1 _ _ _ _ _ _ _ _ => .cfg1
  | .wrCfg2 _ _ _ _ _ _ _ _ => .cfg2

/-- The event time of an operation (rule R60). -/
def Instr.time : Instr → Time
  | .wrMemAddr t _ _ _ => t
  | .wrMemDataProf t _ => t
  | .wrMemDataWin t _ => t
  | .wrCfg0 t _ _ _ _ _ _ => t
  | .wrCfg1 t _ _ _ _ _ _ _ => t
  | .wrCfg2 t _ _ _ _ _ _ _ => t

/-- The data word of an operation, assembled from its format's fields (rules R62 to R69). -/
def Instr.data : Instr → Word
  | .wrMemAddr _ chan msel waddr => curWord chan msel waddr
  | .wrMemDataProf _ data => data
  | .wrMemDataWin _ data => data
  | .wrCfg0 _ start q0 q1 q2 q3 rsvd => cfg0Word start q0 q1 q2 q3 rsvd
  | .wrCfg1 _ q4 q5 q6 q7 q8 q9 rsvd => cfgWord q4 q5 q6 q7 q8 q9 rsvd
  | .wrCfg2 _ q10 q11 q12 q13 q14 q15 rsvd => cfgWord q10 q11 q12 q13 q14 q15 rsvd

/-- The encoder: the event of an operation, the triple `(time, ADDR_<register>, data)` (rules R60, R61, R74). -/
def encode (c : Config) (i : Instr) : Event where
  time := i.time
  address := c.addressOf i.register
  data := i.data

/-- The cursors under which an operation's event decodes to it: any cursor, but for a data write, whose row the
opcode table gives a match on the cursor (rule R76): channel 0, a word below 1024, and the row's memory select. -/
def Instr.matchesCursor (c : Config) (cursor : Reg 32) : Instr → Prop
  | .wrMemAddr _ _ _ _ => True
  | .wrMemDataProf _ _ => ∃ cur, checkedCursor cursor = .ok cur ∧ cursorMsel cur = c.profileSel
  | .wrMemDataWin _ _ => ∃ cur, checkedCursor cursor = .ok cur ∧ cursorMsel cur ≠ c.profileSel
  | .wrCfg0 _ _ _ _ _ _ _ => True
  | .wrCfg1 _ _ _ _ _ _ _ _ => True
  | .wrCfg2 _ _ _ _ _ _ _ _ => True

/-- The event in a bit image: data in bits 31:0, address in bits 63:32, time in bits 127:64 (assumption 9). -/
def Event.ofImage (w : Nat) : Event where
  time := BitVec.ofNat 64 (w >>> 64)
  address := BitVec.ofNat 32 (w >>> 32)
  data := BitVec.ofNat 32 w

/-- The cursor in a bit image, bits 159:128: the opcode table's data rows match on it (assumption 9). -/
def cursorOfImage (w : Nat) : Word := BitVec.ofNat 32 (w >>> 128)

/-- What the decoder reads from an image of `nbits` bits, under the parameters of `State.reset` (assumption 9). -/
def decodeTableWord (nbits w : Nat) : Option Instr :=
  let image := w % 2 ^ nbits
  match decode Config.atReset (.value (cursorOfImage image)) (Event.ofImage image) with
  | .ok i => some i
  | .error _ => none

end Sys2Proof
end

