-- ==== Sys2Proof/Machine/State.lean ====
section
/-! DEFINITION. The state tuple of rule R20 as plain data, with the parameters and the event list of the run beside
it, its reset values (rule R31), and the ways a step can stop. -/

namespace Sys2Proof.Machine

/-- Profile or window memory (rules R23, R24): the written words as (word address, word) pairs, addresses strictly
rising; an unlisted word holds `UNWRITTEN`. The block has no unit smaller than a word (rule R42, assumption 5). -/
abbrev Memory := List (Nat × Word)

/-- The selection table `SEL[0..15]` (rule R22). -/
abbrev Selection := Vector (Reg 5) 16

/-- The fault record of rule R25: the cause and the whole failing event. -/
structure FaultRecord where
  cause : Cause
  time : Time
  address : Word
  data : Word
deriving DecidableEq, Repr

/-- One contribution `weight * CIS(phase)` (rule R165), kept exact: `CIS` is a parameter of any value, irrational ones
too (rules R7, R12; assumption 2). -/
structure CisTerm where
  weight : Cx ℚ
  phase : BitVec 32
deriving DecidableEq, Repr

/-- A complex value of the datapath: the sum of its contributions. Its number under a `CIS` is `CisSum.value`. -/
abbrev CisSum := List CisTerm

/-- One output sample, `QUANT_OUT(exact)` (rule R185). Its number under a `CIS` and a `QUANT_OUT` is `Sample.value`. -/
structure Sample where
  exact : CisSum
deriving DecidableEq, Repr

/-- One result of the output list (rule R26): the sample time and the waveform's complex samples. -/
structure Pulse where
  sampleTime : Time
  waveform : List Sample
deriving DecidableEq, Repr

/-- The state of the block. `cursor`, `sel`, `prof`, `win`, `fault`, `out` and `pc` are the tuple of rule R20.
`config` and `events` are the model's own fields: the parameters of rule R7 (assumption 1) and the ordered event
list `pc` points into (rules R27, R100; assumption 6). -/
structure State where
  /-- The parameters of rule R7; no step changes them. -/
  config : Config
  /-- The run's events in replay order (rule R100); no step changes them. -/
  events : List Event
  /-- Index of the next event (rule R27). -/
  pc : Nat
  /-- The write cursor of the memory port (rule R21). -/
  cursor : Reg 32
  /-- The selected profile of each oscillator (rule R22). -/
  sel : Selection
  /-- Profile memory, words 0 to 1023 (rule R23). -/
  prof : Memory
  /-- Window memory, words 0 to 1023 (rule R24). -/
  win : Memory
  /-- `FAULT`: `NONE` or the record of the first fault (rule R25). -/
  fault : Option FaultRecord
  /-- `OUT`: one result per completed trigger, in replay order (rule R26). -/
  out : List Pulse
deriving DecidableEq, Repr

/-- Why the machine stops. -/
inductive Fault where
  /-- Raised by `step` alone, at a state whose `FAULT` is set: no later event is processed (rules R209, R211). Safe: the
  spec stops there too. The fault itself is taken as a next state, by `takeFault`. -/
  | stopped (record : FaultRecord)
deriving DecidableEq, Repr

/-- What the model does not accept. -/
inductive Refusal where
  /-- Raised by `exec` for an operation without a meaning; no operation is in that position. Safe. -/
  | notModelled (mnemonic : String)
  /-- Raised by `step` when two register addresses are equal or the clock ratio is not positive: "A model configured
  with two equal addresses is ill-formed and is refused" (rule R8). That the ratio is checked too is the model's choice
  (assumption 22). Safe. -/
  | illFormedConfig
  /-- Raised by `accept` for a read request: the block has no read access (rule R47). Safe. -/
  | readRequest
  /-- Raised by `accept` for a write whose time, address or data is outside `i64`, `u32`, `u32` (rule R60). Safe. -/
  | eventOutOfRange
deriving DecidableEq, Repr

/-- The state after reset under given parameters (rules R31, R230), with no event yet: everything `UNWRITTEN`,
`FAULT = NONE`, `OUT` empty and `pc = 0`. -/
def State.resetWith (c : Config) : State where
  config := c
  events := []
  pc := 0
  cursor := .unwritten
  sel := Vector.replicate 16 .unwritten
  prof := []
  win := []
  fault := none
  out := []

/-- The state after reset, at the parameter record `Config.atReset` (assumption 1). -/
def State.reset : State := State.resetWith Config.atReset

end Sys2Proof.Machine
end

