-- ==== Sys2Proof/Machine/Ops.lean ====
section
/-! DEFINITION. The named operations over memory and state that the meanings share, and taking a fault (rule R209). The
block has no return from a fault (rule R211), so none stands here. -/

namespace Sys2Proof.Machine

/-- `MemRead(M:w, 1)`: the word at `a`, or `UNWRITTEN` (rules R12, R31). -/
def Memory.read : Memory → Nat → Reg 32
  | [], _ => .unwritten
  | (b, v) :: m, a => if a = b then .value v else Memory.read m a

/-- `MemWrite(M:w, 1, v)`: the word at `a` becomes `v`; the list stays in rising order (rule R12). -/
def Memory.write : Memory → Nat → Word → Memory
  | [], a, v => [(a, v)]
  | (b, u) :: m, a, v =>
    if a < b then (a, v) :: (b, u) :: m
    else if a = b then (a, v) :: m
    else (b, u) :: Memory.write m a v

/-- The canonical form: addresses strictly rising, each below 1024 (rules R23, R24, R41). -/
def Memory.wf (m : Memory) : Bool :=
  decide ((m.map Prod.fst).Pairwise (· < ·)) && decide (∀ cell ∈ m, cell.1 < Config.memWords)

/-- The selection table with oscillators `base, base + 1, …` set to the listed profiles (rules R107 to R109). -/
def selectFrom (sel : Selection) (base : Nat) : List (BitVec 5) → Selection
  | [] => sel
  | q :: qs => selectFrom (sel.setIfInBounds base (.value q)) (base + 1) qs

/-- Set `CURSOR`. -/
def State.setCursor (s : State) (c : Word) : State := { s with cursor := .value c }

/-- Set the selection table. -/
def State.setSel (s : State) (sel : Selection) : State := { s with sel := sel }

/-- Store a word of profile memory. -/
def State.setProf (s : State) (a : Nat) (v : Word) : State := { s with prof := Memory.write s.prof a v }

/-- Store a word of window memory. -/
def State.setWin (s : State) (a : Nat) (v : Word) : State := { s with win := Memory.write s.win a v }

/-- `emit`: append one result to `OUT` (rule R186). -/
def State.emit (s : State) (p : Pulse) : State := { s with out := s.out ++ [p] }

/-- Set `FAULT` to the record of an event (rule R209). -/
def State.setFault (s : State) (cause : Cause) (ev : Event) : State :=
  { s with fault := some { cause := cause, time := ev.time, address := ev.address, data := ev.data } }

/-- `pc <- pc + 1` (rules R27, R101). -/
def State.advance (s : State) : State := { s with pc := s.pc + 1 }

/-- An event that does not fault: the state it leaves, with `pc` advanced (rule R101). -/
def complete (s : State) : Host.Outcome State Fault Refusal := .next s.advance

/-- Fault entry (rules R209, R210): `FAULT` takes the cause and the event; `pc` does not advance, and nothing else
changes. -/
def takeFault (cause : Cause) (ev : Event) (s : State) : Host.Outcome State Fault Refusal :=
  .next (s.setFault cause ev)

/-- The numeric code of a cause (rule R200). -/
def causeCode : Cause → Nat
  | .unsupportedChannel => 1
  | .unknownAddress => 2
  | .unsupportedWindowSegment => 3
  | .internalConsistency => 4
  | .addressRange => 5
  | .reservedBits => 6
  | .unwritten => 7
  | .sampleTimeInvalid => 8

/-- A read that the spec's pseudocode makes: `UNWRITTEN` raises `Unwritten` (rules R12, R207). -/
def readWritten {w : Nat} : Reg w → Except Cause (BitVec w)
  | .unwritten => .error .unwritten
  | .value v => .ok v

end Sys2Proof.Machine
end

