-- ==== Sys2Proof/Machine/MemoryPort.lean ====
section
/-! DEFINITION. The meanings of the memory port's three operations: `WR_MEM_ADDR`, `WR_MEM_DATA.PROF` and
`WR_MEM_DATA.WIN` (rules R103 to R106, R111). -/

namespace Sys2Proof.Machine

/-- `WR_MEM_ADDR`: all 32 bits become the cursor, with no check (rule R103). -/
def execWrMemAddr (_time : Time) (chan : BitVec 17) (msel : BitVec 1) (waddr : BitVec 14) (s : State) :
    Host.Outcome State Fault Refusal :=
  complete (s.setCursor (curWord chan msel waddr))

/-- What both data rows share (rule R104): check the cursor, store at its word, then add one to the whole cursor
(rule R111). A faulting write stores nothing and leaves the cursor (rule R210). -/
def dataWrite (store : State → Nat → State) (ev : Event) (s : State) : Host.Outcome State Fault Refusal :=
  match checkedCursor s.cursor with
  | .error cause => takeFault cause ev s
  | .ok cur => complete ((store s (cursorWaddr cur).toNat).setCursor (cur + 1#32))

/-- `WR_MEM_DATA.PROF`: store a profile-memory word (rules R104, R105). -/
def execWrMemDataProf (time : Time) (data : Word) (s : State) : Host.Outcome State Fault Refusal :=
  dataWrite (fun s a => s.setProf a data) (encode s.config (.wrMemDataProf time data)) s

/-- `WR_MEM_DATA.WIN`: store a window-memory word (rules R104, R106). -/
def execWrMemDataWin (time : Time) (data : Word) (s : State) : Host.Outcome State Fault Refusal :=
  dataWrite (fun s a => s.setWin a data) (encode s.config (.wrMemDataWin time data)) s

end Sys2Proof.Machine
end

