-- ==== Sys2Proof/Machine/Select.lean ====
section
/-! DEFINITION. The meanings of the two pure profile-selection registers, `WR_CFG1` and `WR_CFG2` (rules R107, R108). -/

namespace Sys2Proof.Machine

/-- What both share: `ReservedBits` when a reserved data bit is set, and then nothing is selected; else all the
listed oscillators take their fields (rules R107, R108, R206). -/
def selectWrite (base : Nat) (fields : List (BitVec 5)) (rsvd : BitVec 2) (ev : Event) (s : State) :
    Host.Outcome State Fault Refusal :=
  if rsvd ≠ 0#2 then takeFault .reservedBits ev s
  else complete (s.setSel (selectFrom s.sel base fields))

/-- `WR_CFG1`: the profiles of oscillators 4 to 9 (rule R107). -/
def execWrCfg1 (time : Time) (q4 q5 q6 q7 q8 q9 : BitVec 5) (rsvd : BitVec 2) (s : State) :
    Host.Outcome State Fault Refusal :=
  selectWrite 4 [q4, q5, q6, q7, q8, q9] rsvd (encode s.config (.wrCfg1 time q4 q5 q6 q7 q8 q9 rsvd)) s

/-- `WR_CFG2`: the profiles of oscillators 10 to 15 (rule R108). -/
def execWrCfg2 (time : Time) (q10 q11 q12 q13 q14 q15 : BitVec 5) (rsvd : BitVec 2) (s : State) :
    Host.Outcome State Fault Refusal :=
  selectWrite 10 [q10, q11, q12, q13, q14, q15] rsvd (encode s.config (.wrCfg2 time q10 q11 q12 q13 q14 q15 rsvd)) s

end Sys2Proof.Machine
end

