-- ==== Sys2Proof/Machine/Operands.lean ====
section
/-! DEFINITION. Operand assembly (rule R70): the fields of the window header, of a window sample and of the two words of
a profile entry. -/

namespace Sys2Proof.Machine

/-- A window header word in its fields (rule R65); `rate` is the stored field plus one. -/
structure Header where
  length : Nat
  rate : Nat
  rsvd : BitVec 2
  shift : Nat
  order : Nat
  head : BitVec 1
  tail : BitVec 1
deriving DecidableEq, Repr

/-- Unpack format `HDR` (rules R65, R70). -/
def headerOf (h : Word) : Header where
  length := (h.extractLsb' 0 10).toNat
  rate := (h.extractLsb' 10 10).toNat + 1
  rsvd := h.extractLsb' 20 2
  shift := (h.extractLsb' 22 6).toNat
  order := (h.extractLsb' 28 2).toNat
  head := h.extractLsb' 30 1
  tail := h.extractLsb' 31 1

/-- Unpack format `IQ`: `I + i*Q`, both halves sign-extended (rules R66, R70). -/
def sampleOf (w : Word) : Cx ℤ where
  re := (w.extractLsb' 0 16).toInt
  im := (w.extractLsb' 16 16).toInt

/-- A profile entry in its fields: `frequency_step`, read as `i32`, `amplitude` and `phase_offset` (rules R23,
R63, R64). -/
structure Osc where
  freq : Word
  amplitude : BitVec 16
  phaseOffset : BitVec 16
deriving DecidableEq, Repr

/-- `amplitude` of format `AMPPH` (rules R64, R70). -/
def ampOf (w : Word) : BitVec 16 := w.extractLsb' 0 16

/-- `phase_offset` of format `AMPPH` (rules R64, R70). -/
def phaseOffsetOf (w : Word) : BitVec 16 := w.extractLsb' 16 16

/-- The word address of an entry's frequency word: `o*64 + q*2` (rule R23). -/
def freqAddr (o : Nat) (q : BitVec 5) : Nat := o * 64 + q.toNat * 2

/-- The word address of an entry's amplitude/phase word: `o*64 + q*2 + 1` (rule R23). -/
def ampphAddr (o : Nat) (q : BitVec 5) : Nat := o * 64 + q.toNat * 2 + 1

end Sys2Proof.Machine
end

