-- ==== Sys2Proof/Machine/Complex.lean ====
section
/-! DEFINITION. Complex arithmetic on pairs (rule R12) over any number type, and on the exact sums `Σ weight * CIS(phase)`
of the datapath, with the number such a sum is under a `CIS`. -/

namespace Sys2Proof.Machine

/-- `(0, 0)`. -/
def cxZero {K : Type} [Zero K] : Cx K := ⟨0, 0⟩

/-- The sum, part by part. -/
def cxAdd {K : Type} [Add K] (z w : Cx K) : Cx K := ⟨z.re + w.re, z.im + w.im⟩

/-- `(a, b) * (c, d) = (a*c - b*d, a*d + b*c)` (rule R12). -/
def cxMul {K : Type} [Add K] [Sub K] [Mul K] (z w : Cx K) : Cx K :=
  ⟨z.re * w.re - z.im * w.im, z.re * w.im + z.im * w.re⟩

/-- Change of number type, part by part. -/
def cxMap {K L : Type} (f : K → L) (z : Cx K) : Cx L := ⟨f z.re, f z.im⟩

/-- The sum of a list. -/
def cxSum {K : Type} [Zero K] [Add K] : List (Cx K) → Cx K
  | [] => cxZero
  | z :: zs => cxAdd z (cxSum zs)

/-- The product of an exact sum and a complex rational, term by term. -/
def CisSum.scaleBy (z : Cx ℚ) (p : CisSum) : CisSum := p.map fun t => { t with weight := cxMul t.weight z }

/-- The number `weight * CIS(phase)` over a field `K` (rule R165). -/
def CisTerm.value {K : Type} [Field K] (cis : BitVec 32 → Cx K) (t : CisTerm) : Cx K :=
  cxMul (cxMap (Rat.cast : ℚ → K) t.weight) (cis t.phase)

/-- The number an exact sum is under a `CIS` over a field `K` (rules R165, R166). -/
def CisSum.value {K : Type} [Field K] (cis : BitVec 32 → Cx K) (p : CisSum) : Cx K :=
  cxSum (p.map (CisTerm.value cis))

/-- The number an output sample is under a `CIS` and a `QUANT_OUT` (rule R185). -/
def Sample.value {K : Type} [Field K] (num : Numerics K) (w : Sample) : Cx K :=
  num.quantOut (CisSum.value num.cis w.exact)

/-- The numbers of a waveform (rule R26). -/
def Pulse.values {K : Type} [Field K] (num : Numerics K) (p : Pulse) : List (Cx K) :=
  p.waveform.map (Sample.value num)

end Sys2Proof.Machine
end

