-- ==== Sys2Proof/Machine/Interpolator.lean ====
section
/-! DEFINITION. The envelope window interpolator (rules R130 to R139): header and samples from window memory, zero-order
hold, boxcar passes, exact scaling by `2^-shift`. -/

namespace Sys2Proof.Machine

/-- `HOLD(x, rate)`: each sample `rate` times (rule R134). -/
def hold (x : List (Cx ℤ)) (rate : Nat) : List (Cx ℤ) :=
  x.flatMap fun z => List.replicate rate z

/-- `X(m - j)` of rule R135: element `m - j`, or 0 outside the list. -/
def tap (x : List (Cx ℤ)) (m j : Nat) : Cx ℤ :=
  if j ≤ m then x.getD (m - j) cxZero else cxZero

/-- `BOX(x, rate)`: the full convolution with the all-ones kernel of length `rate`; an empty list stays empty
(rule R135). -/
def box (x : List (Cx ℤ)) (rate : Nat) : List (Cx ℤ) :=
  if x.isEmpty then []
  else (List.range (x.length + rate - 1)).map fun m => cxSum ((List.range rate).map (tap x m))

/-- `order` boxcar passes in succession (rule R136). -/
def cascade (rate : Nat) : Nat → List (Cx ℤ) → List (Cx ℤ)
  | 0, x => x
  | order + 1, x => cascade rate order (box x rate)

/-- The samples `WIN[base ..]`, lowest address first; the first unwritten one faults (rules R130, R133, R212). -/
def readSamples (win : Memory) (base : Nat) : Nat → Except Cause (List (Cx ℤ))
  | 0 => .ok []
  | k + 1 => do
    let w ← readWritten (Memory.read win base)
    let rest ← readSamples win (base + 1) k
    return sampleOf w :: rest

/-- The checks on a header, in the order of rule R212: segment markers (rule R132), reserved bits (rule R206),
window end (rule R133). -/
def checkHeader (start : Nat) (h : Header) : Except Cause Unit :=
  if h.head ≠ 1#1 ∨ h.tail ≠ 1#1 then .error .unsupportedWindowSegment
  else if h.rsvd ≠ 0#2 then .error .reservedBits
  else if 1023 < start + h.length then .error .addressRange
  else .ok ()

/-- The length the cascade must have: `(L + order) * rate - order` (rules R137, R142). -/
def requiredLength (h : Header) : Nat := (h.length + h.order) * h.rate - h.order

/-- `y * 2^-shift`, exact (rule R138). -/
def normalise (shift : Nat) (y : Cx ℤ) : Cx ℚ :=
  ⟨(y.re : ℚ) / 2 ^ shift, (y.im : ℚ) / 2 ^ shift⟩

/-- `RECONSTRUCT(start, ev)`: the envelope, or the cause of the first fault (rule R130). -/
def reconstruct (win : Memory) (start : BitVec 10) : Except Cause (List (Cx ℚ)) := do
  let word ← readWritten (Memory.read win start.toNat)
  let h := headerOf word
  checkHeader start.toNat h
  let x ← readSamples win (start.toNat + 1) h.length
  let y := cascade h.rate h.order (hold x h.rate)
  if y.length ≠ requiredLength h then .error .internalConsistency
  else return y.map (normalise h.shift)

end Sys2Proof.Machine
end

