-- ==== Sys2Proof/Machine/PhaseAccumulator.lean ====
section
/-! DEFINITION. The phase accumulator and the oscillator sum (rules R160 to R166), exact for every `CIS`. -/

namespace Sys2Proof.Machine

/-- The entry oscillator `o` has selected: `none` when its amplitude is 0 (rule R161). The selection, the
amplitude/phase word and, for an active entry, the frequency word must be written (rules R160, R207, R212). -/
def lookup (sel : Selection) (prof : Memory) (o : Fin 16) : Except Cause (Option Osc) := do
  let q ← readWritten sel[o]
  let wa ← readWritten (Memory.read prof (ampphAddr o q))
  if ampOf wa = 0#16 then return none
  else
    let wf ← readWritten (Memory.read prof (freqAddr o q))
    return some { freq := wf, amplitude := ampOf wa, phaseOffset := phaseOffsetOf wa }

/-- The active entries of the listed oscillators, in order; the first fault ends the search (rules R160, R212). -/
def lookupAll (sel : Selection) (prof : Memory) : List (Fin 16) → Except Cause (List Osc)
  | [] => .ok []
  | o :: os => do
    let entry ← lookup sel prof o
    let rest ← lookupAll sel prof os
    return entry.toList ++ rest

/-- `ph_init = mod32((p << 16) + f * (st - 1))`, with `f` read as `i32` (rule R162). -/
def phaseInit (o : Osc) (st : Int) : Word :=
  BitVec.ofInt 32 ((o.phaseOffset.toNat : Int) * 2 ^ 16 + o.freq.toInt * (st - 1))

/-- The accumulator's next `n` phases: it first adds `f`, then gives the phase (rule R163). -/
def phases (f : Word) : Word → Nat → List Word
  | _, 0 => []
  | ph, n + 1 => (ph + f) :: phases f (ph + f) n

/-- The `n` contributions `a * CIS(ph[j])` of one active oscillator (rule R165). -/
def contributions (st : Int) (n : Nat) (o : Osc) : List CisSum :=
  (phases o.freq (phaseInit o st) n).map fun ph => [{ weight := ⟨(o.amplitude.toNat : ℚ), 0⟩, phase := ph }]

/-- `OSCSUM`: the contributions of the active oscillators added sample by sample, from zero (rules R160, R166). -/
def oscSum (st : Int) (n : Nat) (oscs : List Osc) : List CisSum :=
  oscs.foldl (fun S o => List.zipWith (· ++ ·) S (contributions st n o)) (List.replicate n [])

end Sys2Proof.Machine
end

