-- ==== Sys2Proof/Machine/Multiplier.lean ====
section
/-! DEFINITION. The complex multiplier and output normalisation (rules R184, R185), exact for every `CIS` and
`QUANT_OUT`. -/

namespace Sys2Proof.Machine

/-- `P[j] = S[j] * env[j]` (rule R184). -/
def product (S : List CisSum) (env : List (Cx ℚ)) : List CisSum :=
  List.zipWith (fun p e => CisSum.scaleBy e p) S env

/-- `W[j] = QUANT_OUT(P[j] * 2^-31)` (rule R185). -/
def outputSample (p : CisSum) : Sample where
  exact := CisSum.scaleBy ⟨1 / 2 ^ 31, 0⟩ p

/-- The waveform of a trigger at sample time `st` with `n = len(env)` samples (rules R183 to R185). -/
def waveform (st : Int) (oscs : List Osc) (env : List (Cx ℚ)) : List Sample :=
  (product (oscSum st env.length oscs) env).map outputSample

end Sys2Proof.Machine
end

