-- ==== Sys2Proof/Machine/Trigger.lean ====
section
/-! DEFINITION. The trigger and the meaning of `WR_CFG0` (rules R109, R180 to R187). -/

namespace Sys2Proof.Machine

/-- `st = ev.time * CLOCK_RATIO`, which must be an integer of the `i64` range (rules R182, R208). -/
def sampleTime (c : Config) (time : Time) : Except Cause Time :=
  let st : ℚ := (time.toInt : ℚ) * c.clockRatio
  if st.den ≠ 1 ∨ st.num < -2 ^ 63 ∨ 2 ^ 63 ≤ st.num then .error .sampleTimeInvalid
  else .ok (BitVec.ofInt 64 st.num)

/-- All 16 oscillators, ascending (rule R160). -/
def oscillators : List (Fin 16) := List.finRange 16

/-- One synthesis (rule R187): envelope, sample time, oscillator lookups and waveform, in the stage order of rule
R212; the first stage that faults gives the cause. -/
def synthesise (c : Config) (sel : Selection) (prof win : Memory) (start : BitVec 10)
    (time : Time) : Except Cause Pulse := do
  let env ← reconstruct win start
  let st ← sampleTime c time
  let oscs ← lookupAll sel prof oscillators
  return { sampleTime := st, waveform := waveform st.toInt oscs env }

/-- `WR_CFG0`: select the profiles of oscillators 0 to 3, then synthesise one pulse with the new selection and emit
it. A faulting write neither selects nor emits (rules R109, R187, R210). -/
def execWrCfg0 (time : Time) (start : BitVec 10) (q0 q1 q2 q3 : BitVec 5) (rsvd : BitVec 2) (s : State) :
    Host.Outcome State Fault Refusal :=
  let ev := encode s.config (.wrCfg0 time start q0 q1 q2 q3 rsvd)
  if rsvd ≠ 0#2 then takeFault .reservedBits ev s
  else
    let sel := selectFrom s.sel 0 [q0, q1, q2, q3]
    match synthesise s.config sel s.prof s.win start time with
    | .error cause => takeFault cause ev s
    | .ok pulse => complete ((s.setSel sel).emit pulse)

end Sys2Proof.Machine
end

