-- ==== Sys2Proof/Machine/Dispatch.lean ====
section
/-! DEFINITION. One operation on one state: the meaning of each row of the opcode table (rule R101). -/

namespace Sys2Proof.Machine

def exec (i : Instr) (s : State) : Host.Outcome State Fault Refusal :=
  match i with
  | .wrMemAddr t chan msel waddr => Sys2Proof.Machine.execWrMemAddr t chan msel waddr s
  | .wrMemDataProf t data => Sys2Proof.Machine.execWrMemDataProf t data s
  | .wrMemDataWin t data => Sys2Proof.Machine.execWrMemDataWin t data s
  | .wrCfg0 t start q0 q1 q2 q3 rsvd => Sys2Proof.Machine.execWrCfg0 t start q0 q1 q2 q3 rsvd s
  | .wrCfg1 t q4 q5 q6 q7 q8 q9 rsvd => Sys2Proof.Machine.execWrCfg1 t q4 q5 q6 q7 q8 q9 rsvd s
  | .wrCfg2 t q10 q11 q12 q13 q14 q15 rsvd => Sys2Proof.Machine.execWrCfg2 t q10 q11 q12 q13 q14 q15 rsvd s

end Sys2Proof.Machine
end

