-- ==== Sys2Proof/Machine/Fetch.lean ====
section
/-! DEFINITION. Which event comes next, and putting one there (rules R27, R100, R101). -/

namespace Sys2Proof.Machine

/-- `ordered[pc]`: the next event, if the list has one left (rules R27, R101). -/
def nextEvent (s : State) : Option Event := s.events[s.pc]?

/-- The event list with `ev` at index `pc`; a list that ends before `pc` is filled up to it with `ev`. -/
def placeEvent (events : List Event) (pc : Nat) (ev : Event) : List Event :=
  List.takeD pc events ev ++ ev :: events.drop (pc + 1)

/-- The cursor an image needs to be fetched: a data write is decoded by the cursor (rule R76), so the image's own
cursor is set for it; any other write leaves the cursor (assumption 9). -/
def fetchCursor (c : Config) (cursor : Reg 32) (image : Nat) : Reg 32 :=
  if (Event.ofImage image).address = c.addrMemData then .value (cursorOfImage image) else cursor

/-- `s` with the image's event as the next event, ready to run: no fault is pending, and the cursor is the image's
for a data write (assumption 9). -/
def placeImage (s : State) (image : Nat) : State :=
  { s with
    events := placeEvent s.events s.pc (Event.ofImage image)
    cursor := fetchCursor s.config s.cursor image
    fault := none }

end Sys2Proof.Machine
end

