-- ==== Sys2Proof/Machine/Step.lean ====
section
/-! DEFINITION. One replay step (rule R101), and the host's way to place an instruction. -/

namespace Sys2Proof.Machine

/-- The replay step (rules R8, R101, R209): an ill-formed parameter record is refused; a state with a fault is
stopped; with no event left the block holds its state (rules R27, R218, assumption 7); else the next event is
decoded and run, or faults with the cause the decoder names. -/
def step (s : State) : Host.Outcome State Fault Refusal :=
  if s.config.wf then
    match s.fault with
    | some record => .fault (.stopped record)
    | none =>
      match nextEvent s with
      | none => .next s
      | some ev =>
        match decode s.config s.cursor ev with
        | .error cause => takeFault cause ev s
        | .ok i => exec i s
  else .refused .illFormedConfig

/-- `s` with the instruction of an image of `nbits` bits as its next event, so that `step` runs it. -/
def State.withFetchWord (s : State) (nbits w : Nat) : State := placeImage s (w % 2 ^ nbits)

end Sys2Proof.Machine
end

