-- ==== Sys2Proof/Machine/Pseudo.lean ====
section
/-! DEFINITION. The notation for writing programs (rules R74, R75): one line, and the pseudo-operations, as the events
they stand for. They are no operations of their own. -/

namespace Sys2Proof.Machine

/-- The line `<MNEMONIC> @<time>, <data>` of a register (rule R74). -/
def writeLine (c : Config) (r : Register) (t : Time) (data : Word) : Event :=
  { time := t, address := c.addressOf r, data := data }

/-- The cursor of word `w` of entry `(o, q)`: `PROFILE_SEL << 14 | o<<6 | q<<1 | w` (rules R62, R75). -/
def entryCursor (c : Config) (o : BitVec 4) (q : BitVec 5) (w : BitVec 1) : Word :=
  curWord 0#17 c.profileSel (0#4 ++ o ++ q ++ w)

/-- The cursor of window word `start` (rules R62, R75). -/
def windowCursor (c : Config) (start : BitVec 10) : Word :=
  curWord 0#17 (~~~c.profileSel) (0#4 ++ start)

/-- The `AMPPH` word `a | p<<16` (rules R64, R75). -/
def ampphWord (a p : BitVec 16) : Word := p ++ a

/-- The sample word `zext_16(I) | zext_16(Q)<<16` (rules R66, R75). -/
def sampleWord (i q : BitVec 16) : Word := q ++ i

/-- The header word `L | (rate-1)<<10 | shift<<22 | order<<28 | 1<<30 | 1<<31` (rules R65, R75). DESIGN CHOICE (assumption
24) where R75 is silent: a length, shift, order or `rate - 1` too large for its field is cut to the field's low bits, and a
rate of 0 gives the word of rate 1. -/
def headerWord (length rate shift order : Nat) : Word :=
  1#1 ++ 1#1 ++ BitVec.ofNat 2 order ++ BitVec.ofNat 6 shift ++ 0#2 ++ BitVec.ofNat 10 (rate - 1) ++
    BitVec.ofNat 10 length

/-- `SETPROF @t, o, q, f, a, p` (rule R75). -/
def setProf (c : Config) (t : Time) (o : BitVec 4) (q : BitVec 5) (f : Int) (a p : BitVec 16) : List Event :=
  [writeLine c .memAddr t (entryCursor c o q 0#1), writeLine c .memData t (BitVec.ofInt 32 f),
    writeLine c .memData t (ampphWord a p)]

/-- `SETAMP @t, o, q, a, p` (rule R75). -/
def setAmp (c : Config) (t : Time) (o : BitVec 4) (q : BitVec 5) (a p : BitVec 16) : List Event :=
  [writeLine c .memAddr t (entryCursor c o q 1#1), writeLine c .memData t (ampphWord a p)]

/-- `SETWIN @t, start, L, rate, shift, order, s_1 .. s_L` (rule R75), with `L` the number of samples.
DESIGN CHOICE (assumption 24) where R75 is silent: with more than 1023 samples the header's `L` is their number mod 1024, and
every sample is still written. -/
def setWin (c : Config) (t : Time) (start : BitVec 10) (rate shift order : Nat)
    (samples : List (BitVec 16 × BitVec 16)) : List Event :=
  writeLine c .memAddr t (windowCursor c start) ::
    writeLine c .memData t (headerWord samples.length rate shift order) ::
    samples.map fun s => writeLine c .memData t (sampleWord s.1 s.2)

/-- `SELECT1 @t, q4 .. q9` (rule R75). -/
def select1 (c : Config) (t : Time) (q4 q5 q6 q7 q8 q9 : BitVec 5) : List Event :=
  [writeLine c .cfg1 t (cfgWord q4 q5 q6 q7 q8 q9 0#2)]

/-- `SELECT2 @t, q10 .. q15` (rule R75). -/
def select2 (c : Config) (t : Time) (q10 q11 q12 q13 q14 q15 : BitVec 5) : List Event :=
  [writeLine c .cfg2 t (cfgWord q10 q11 q12 q13 q14 q15 0#2)]

/-- `PULSE @t, start, q0, q1, q2, q3` (rule R75). -/
def pulse (c : Config) (t : Time) (start : BitVec 10) (q0 q1 q2 q3 : BitVec 5) : List Event :=
  [writeLine c .cfg0 t (cfg0Word start q0 q1 q2 q3 0#2)]

end Sys2Proof.Machine
end

