-- ==== Sys2Proof/Machine/Replay.lean ====
section
/-! DEFINITION. A whole run: what the host may hand to the block (rules R47, R60), the replay order (rules R50, R100), the
start of a run (rule R230) and its observation (rules R16, R102, R219). -/

namespace Sys2Proof.Machine

/-- What a host may ask of the block: a write of any three integers, or a read. -/
inductive HostRequest where
  | write (time address data : Int)
  | read (address : Int)
deriving DecidableEq, Repr

/-- The block's boundary: a write within `i64`, `u32`, `u32` is an event (rule R60); any other write and every read
(rule R47) is refused. -/
def accept : HostRequest → Except Refusal Event
  | .read _ => .error .readRequest
  | .write t a d =>
    if (-2 ^ 63 ≤ t ∧ t < 2 ^ 63) ∧ (0 ≤ a ∧ a < 2 ^ 32) ∧ (0 ≤ d ∧ d < 2 ^ 32) then
      .ok { time := BitVec.ofInt 64 t, address := BitVec.ofInt 32 a, data := BitVec.ofInt 32 d }
    else .error .eventOutOfRange

/-- A list of requests as events, in order; the first refusal ends it. -/
def acceptAll : List HostRequest → Except Refusal (List Event)
  | [] => .ok []
  | r :: rs => do
    let ev ← accept r
    let evs ← acceptAll rs
    return ev :: evs

/-- The order of two events by `time` (rule R100). -/
abbrev notLater (a b : Event) : Prop := a.time.toInt ≤ b.time.toInt

/-- The replay order: a stable sort on `time`, ascending (rules R50, R100). -/
def replayOrder (events : List Event) : List Event := events.insertionSort notLater

/-- The state a run starts from: reset, with the run's events in replay order (rules R100, R230, R231). -/
def start (c : Config) (events : List Event) : State :=
  { State.resetWith c with events := replayOrder events }

/-- The observation of a run (rules R16, R219): its output, its fault, or that the model did not accept it. -/
inductive Observation where
  | ok (out : List Pulse)
  | err (record : FaultRecord)
  | refused (reason : Refusal)
deriving DecidableEq, Repr

/-- `Ok(OUT)` when no event faulted, `Err(FAULT)` when one did (rule R219). -/
def observe : Host.Outcome State Fault Refusal → Observation
  | .next s =>
    match s.fault with
    | none => .ok s.out
    | some record => .err record
  | .fault (.stopped record) => .err record
  | .refused reason => .refused reason

/-- The observation's results as numbers, under a `CIS` and a `QUANT_OUT` over a field: the pairs `(st, W)` of rules R16
and R186. A run that faulted has none (rule R219). -/
def Observation.results {K : Type} [Field K] (num : Numerics K) : Observation → Option (List (Int × List (Cx K)))
  | .ok out => some (out.map fun p => (p.sampleTime.toInt, Pulse.values num p))
  | .err _ => none
  | .refused _ => none

/-- The run of a list of events: one step for each, and one more, at which a faulted run is stopped (rules R16, R101). -/
def replay (c : Config) (events : List Event) : Observation :=
  observe (Sys2Proof.core.run (events.length + 1) (start c events))

/-- The run of a list of host requests. -/
def replayRequests (c : Config) (requests : List HostRequest) : Observation :=
  match acceptAll requests with
  | .error reason => .refused reason
  | .ok events => replay c events

end Sys2Proof.Machine
end

