-- ==== Sys2Proof/Safety.lean ====
section
/-! DEFINITION. What counts as safe: what must be written before a trigger (rule R232), and which runs the spec certifies
(rules R238, R239). -/

namespace Sys2Proof.Machine

/-- The next step processes the event `ev`: the parameters are well formed, no fault has been taken, and `ev` is the
next event (rule R101). -/
def willRun (s : State) (ev : Event) : Prop :=
  s.config.wf = true ∧ s.fault = none ∧ nextEvent s = some ev

/-- A cell that has been written. -/
def Reg.written {w : Nat} : Reg w → Prop
  | .unwritten => False
  | .value _ => True

/-- Item 1 of rule R232: a header with both markers, no reserved bit and its window's end in memory, and all its
samples written. -/
def windowReady (win : Memory) (start : BitVec 10) : Prop :=
  ∃ word, Memory.read win start.toNat = .value word ∧
    (headerOf word).head = 1#1 ∧ (headerOf word).tail = 1#1 ∧ (headerOf word).rsvd = 0#2 ∧
    start.toNat + (headerOf word).length ≤ 1023 ∧
    ∀ k, 1 ≤ k → k ≤ (headerOf word).length → Reg.written (Memory.read win (start.toNat + k))

/-- Items 2 to 4 of rule R232 for one oscillator: a selection, its amplitude/phase word, and for an amplitude other
than 0 its frequency word. -/
def oscillatorReady (sel : Selection) (prof : Memory) (o : Fin 16) : Prop :=
  ∃ q word, sel[o] = .value q ∧ Memory.read prof (ampphAddr o q) = .value word ∧
    (ampOf word ≠ 0#16 → Reg.written (Memory.read prof (freqAddr o q)))

/-- The window at `start` has a consistent length (rules R137, R139): it has a sample, or no pass, or rate 1. -/
def windowConsistent (win : Memory) (start : BitVec 10) : Prop :=
  ∀ word, Memory.read win start.toNat = .value word →
    1 ≤ (headerOf word).length ∨ (headerOf word).order = 0 ∨ (headerOf word).rate = 1

/-- No two results overlap (rule R238): each one's last sample comes before the next one's first. -/
def overlapFree (out : List Pulse) : Prop :=
  out.Pairwise fun (p q : Pulse) => p.sampleTime.toInt + (p.waveform.length : Int) ≤ q.sampleTime.toInt

/-- The two word memories. -/
inductive MemoryName where
  | prof
  | win
deriving DecidableEq, Repr

/-- The words a trigger may read (rules R130, R160): its window, and both words of every selected entry. -/
def readsOf (s : State) : Instr → List (MemoryName × Nat)
  | .wrCfg0 _ start q0 q1 q2 q3 _ =>
    (MemoryName.win, start.toNat) ::
    (match Memory.read s.win start.toNat with
      | .unwritten => []
      | .value h => (List.range (headerOf h).length).map fun k => (MemoryName.win, start.toNat + 1 + k)) ++
    oscillators.flatMap fun o =>
      match (selectFrom s.sel 0 [q0, q1, q2, q3])[o] with
      | .unwritten => []
      | .value q => [(MemoryName.prof, freqAddr o q), (MemoryName.prof, ampphAddr o q)]
  | .wrMemAddr _ _ _ _ => []
  | .wrMemDataProf _ _ => []
  | .wrMemDataWin _ _ => []
  | .wrCfg1 _ _ _ _ _ _ _ _ => []
  | .wrCfg2 _ _ _ _ _ _ _ _ => []

/-- The word a data write stores to (rules R105, R106). -/
def storesOf (s : State) : Instr → List (MemoryName × Nat)
  | .wrMemDataProf _ _ =>
    match checkedCursor s.cursor with
    | .error _ => []
    | .ok cur => [(MemoryName.prof, (cursorWaddr cur).toNat)]
  | .wrMemDataWin _ _ =>
    match checkedCursor s.cursor with
    | .error _ => []
    | .ok cur => [(MemoryName.win, (cursorWaddr cur).toNat)]
  | .wrMemAddr _ _ _ _ => []
  | .wrCfg0 _ _ _ _ _ _ _ => []
  | .wrCfg1 _ _ _ _ _ _ _ _ => []
  | .wrCfg2 _ _ _ _ _ _ _ _ => []

/-- The state and the operation at replay position `k` of a run, where it has one. -/
def operationAt (c : Config) (events : List Event) (k : Nat) : Option (State × Instr) :=
  match Sys2Proof.core.run k (start c events) with
  | .next s =>
    match nextEvent s with
    | none => none
    | some ev =>
      match decode s.config s.cursor ev with
      | .error _ => none
      | .ok i => some (s, i)
  | .fault _ => none
  | .refused _ => none

/-- No write changes a pulse's window or profiles before its last sample (rule R239). -/
def undisturbed (c : Config) (events : List Event) : Prop :=
  ∀ k m s i t j s' p, k < m → operationAt c events k = some (s, i) → operationAt c events m = some (t, j) →
    exec i s = .next s' → s'.out = s.out ++ [p] → (∃ cell ∈ readsOf s i, cell ∈ storesOf t j) →
    ((p.sampleTime.toInt + (p.waveform.length : Int) - 1 : Int) : ℚ) ≤ (j.time.toInt : ℚ) * c.clockRatio

/-- A run the spec certifies: at no step, whether a later event faults or not, do the results emitted so far overlap, and
no write falls within a pulse (rules R238, R239; decision D22). Of any other run the model says nothing about the analog
output. -/
def certified (c : Config) (events : List Event) : Prop :=
  (∀ k s, Sys2Proof.core.run k (start c events) = .next s → overlapFree s.out) ∧ undisturbed c events

end Sys2Proof.Machine
end

