-- ==== Sys2Proof/Certificates/Slice0/Obligations.lean ====
section
/-! DEFINITION. The statements for the provers, from the numbered rules of the spec. -/

open Sys2Proof Sys2Proof.Machine

/-! Reset, the step, and what is refused -/

/-- R31, R230 (the spec's choice D14): after reset every register and memory word is `UNWRITTEN`, `FAULT` is `NONE`,
`OUT` is empty and `pc` is 0, whatever the parameters. -/
def Obligations.ResetHoldsNothing : Prop :=
  (∀ c : Config,
    (State.resetWith c).cursor = .unwritten ∧ (∀ o : Fin 16, (State.resetWith c).sel[o] = .unwritten) ∧
    (∀ a, Memory.read (State.resetWith c).prof a = .unwritten) ∧
    (∀ a, Memory.read (State.resetWith c).win a = .unwritten) ∧
    (State.resetWith c).fault = none ∧ (State.resetWith c).out = [] ∧ (State.resetWith c).pc = 0) ∧
  State.reset = State.resetWith Config.atReset

/-- R101: when the next event decodes to an operation, the step is that operation's meaning, and nothing beside it. -/
def Obligations.StepRunsDecodedOperation : Prop :=
  ∀ (s : State) (ev : Event) (i : Instr), willRun s ev → decode s.config s.cursor ev = .ok i → step s = exec i s

/-- R101, R209: when the next event is no operation, the step records the fault and the whole event, and changes
nothing else. -/
def Obligations.UndecodedEventFaults : Prop :=
  ∀ (s : State) (ev : Event) (cause : Cause), willRun s ev → decode s.config s.cursor ev = .error cause →
    step s = .next { s with fault := some ⟨cause, ev.time, ev.address, ev.data⟩ }

/-- R110, R202: a write to any address other than the five raises `UnknownAddress` and changes no other state. -/
def Obligations.UnknownAddressWriteFaults : Prop :=
  ∀ (s : State) (ev : Event), willRun s ev →
    ev.address ≠ s.config.addrMemAddr → ev.address ≠ s.config.addrMemData → ev.address ≠ s.config.addrCfg0 →
    ev.address ≠ s.config.addrCfg1 → ev.address ≠ s.config.addrCfg2 →
    step s = .next { s with fault := some ⟨.unknownAddress, ev.time, ev.address, ev.data⟩ }

/-- R209, R211: a state with a fault processes no later event; with no fault and no event left, the block holds its
state (the model's choice, assumption 7). -/
def Obligations.FaultedRunProcessesNothing : Prop :=
  ∀ s : State, s.config.wf = true →
    (∀ r, s.fault = some r → step s = .fault (.stopped r)) ∧
    (s.fault = none → nextEvent s = none → step s = .next s)

/-- R8 (the spec's choice D2): parameters with two equal addresses are refused. That a ratio that is not positive is refused
too is the model's choice (assumption 22, DEDUCED: R7 only calls the parameter a positive rational). No others are. -/
def Obligations.IllFormedParametersRefused : Prop :=
  ∀ s : State,
    (step s = .refused .illFormedConfig ↔
      ¬([s.config.addrMemAddr, s.config.addrMemData, s.config.addrCfg0, s.config.addrCfg1,
          s.config.addrCfg2].Pairwise (· ≠ ·) ∧ 0 < s.config.clockRatio)) ∧
    (∀ r, step s = .refused r → r = .illFormedConfig)

/-- R47, R60 (the spec's choices D19, D27): a read is refused; a write is an event exactly when its time, address and
data are an `i64`, a `u32` and a `u32`, and the event holds those values. -/
def Obligations.BoundaryAcceptsExactlyEvents : Prop :=
  (∀ a, accept (.read a) = .error .readRequest) ∧
  ∀ t a d : Int,
    (((-2 ^ 63 ≤ t ∧ t < 2 ^ 63) ∧ (0 ≤ a ∧ a < 2 ^ 32) ∧ (0 ≤ d ∧ d < 2 ^ 32)) →
      ∃ ev, accept (.write t a d) = .ok ev ∧ ev.time.toInt = t ∧ (ev.address.toNat : Int) = a ∧
        (ev.data.toNat : Int) = d) ∧
    (¬((-2 ^ 63 ≤ t ∧ t < 2 ^ 63) ∧ (0 ≤ a ∧ a < 2 ^ 32) ∧ (0 ≤ d ∧ d < 2 ^ 32)) →
      accept (.write t a d) = .error .eventOutOfRange)

/-! Encoding -/

/-- R61, R62, R67 to R69, R76: words written out from the spec's formats decode to their operations (examples of R103,
R104, R105, R107, R108; vector V-D11). A sanity statement. -/
def Obligations.SpecWordsDecode : Prop :=
  decode Config.atReset .unwritten ⟨5#64, Config.atReset.addrMemAddr, 0x00004046#32⟩ =
    .ok (.wrMemAddr 5#64 0#17 1#1 0x046#14) ∧
  decode Config.atReset (.value 0x00000064#32) ⟨9#64, Config.atReset.addrMemData, 0xD0400402#32⟩ =
    .ok (.wrMemDataWin 9#64 0xD0400402#32) ∧
  decode Config.atReset (.value 0x00004000#32) ⟨33#64, Config.atReset.addrMemData, 0x40000000#32⟩ =
    .ok (.wrMemDataProf 33#64 0x40000000#32) ∧
  decode Config.atReset .unwritten ⟨0#64, Config.atReset.addrCfg0, 0x3E310407#32⟩ =
    .ok (.wrCfg0 0#64 7#10 1#5 2#5 3#5 31#5 0#2) ∧
  decode Config.atReset .unwritten ⟨0#64, Config.atReset.addrCfg1, 0x0C520C41#32⟩ =
    .ok (.wrCfg1 0#64 1#5 2#5 3#5 4#5 5#5 6#5 0#2) ∧
  decode Config.atReset .unwritten ⟨0#64, Config.atReset.addrCfg2, 0x3FFFFFFF#32⟩ =
    .ok (.wrCfg2 0#64 31#5 31#5 31#5 31#5 31#5 31#5 0#2)

/-- Decode after encode, for every operation with every operand, under every well-formed parameter record and every
cursor that selects its row (R61, R76). -/
def Obligations.DecodeInvertsEncode : Prop :=
  ∀ (c : Config) (cursor : Reg 32) (i : Instr), c.wf = true → i.matchesCursor c cursor →
    decode c cursor (encode c i) = .ok i

/-- Encode after decode: no bit of an event that decodes is dropped, the reserved bits among them (R61, R67 to R69). -/
def Obligations.EncodeInvertsDecode : Prop :=
  ∀ (c : Config) (cursor : Reg 32) (ev : Event) (i : Instr), decode c cursor ev = .ok i → encode c i = ev

/-- R65, R66, R64: the fields of a header, a sample and an amplitude/phase word stand where the formats put them, for
every value of every field. -/
def Obligations.OperandWordsUnpack : Prop :=
  (∀ (tail head : BitVec 1) (order : BitVec 2) (shift : BitVec 6) (rsvd : BitVec 2) (rate length : BitVec 10),
    headerOf (tail ++ head ++ order ++ shift ++ rsvd ++ rate ++ length) =
      { length := length.toNat, rate := rate.toNat + 1, rsvd := rsvd, shift := shift.toNat, order := order.toNat,
        head := head, tail := tail }) ∧
  (∀ i q : BitVec 16, sampleOf (q ++ i) = ⟨i.toInt, q.toInt⟩) ∧
  (∀ a p : BitVec 16, ampOf (p ++ a) = a ∧ phaseOffsetOf (p ++ a) = p)

/-! The memory port -/

/-- R103: a write of the address register makes all 32 data bits the cursor, with no check and no increment, and leaves
everything else; a cursor that a data write cannot use makes the next data write fault, and not before. -/
def Obligations.AddressWriteSetsCursor : Prop :=
  (∀ (s : State) (t : Time) (chan : BitVec 17) (msel : BitVec 1) (waddr : BitVec 14),
    exec (.wrMemAddr t chan msel waddr) s =
      .next { s with cursor := .value (chan ++ msel ++ waddr), pc := s.pc + 1 }) ∧
  (∀ (s : State) (ev : Event), willRun s ev → ev.address = s.config.addrMemAddr →
    step s = .next { s with cursor := .value ev.data, pc := s.pc + 1 }) ∧
  (∀ (s : State) (ev ev' : Event) (cause : Cause), willRun s ev → ev.address = s.config.addrMemAddr →
    s.events[s.pc + 1]? = some ev' → ev'.address = s.config.addrMemData →
    checkedCursor (.value ev.data) = .error cause →
    step { s with cursor := .value ev.data, pc := s.pc + 1 } =
      .next { s with cursor := .value ev.data, pc := s.pc + 1,
                     fault := some ⟨cause, ev'.time, ev'.address, ev'.data⟩ })

/-- R105 with R104, R111 (increment: the spec's choice D28): with a cursor that names a word below 1024 of channel 0, `WR_MEM_DATA.PROF` completes: that word
of profile memory becomes the data, the cursor moves on by one, and nothing else changes. That it does so also under a cursor
whose `MSEL` names window memory, which no step gives this row, is the model's choice (assumption 10). -/
def Obligations.ProfileWriteStoresWord : Prop :=
  ∀ (s : State) (t : Time) (data cur : Word), checkedCursor s.cursor = .ok cur →
    ∃ s', exec (.wrMemDataProf t data) s = .next s' ∧
      s' = { s with prof := s'.prof, cursor := .value (cur + 1#32), pc := s.pc + 1 } ∧
      Memory.read s'.prof (cursorWaddr cur).toNat = .value data ∧
      ∀ a, a ≠ (cursorWaddr cur).toNat → Memory.read s'.prof a = Memory.read s.prof a

/-- R106 with R104, R111 (increment: the spec's choice D28): with a cursor that names a word below 1024 of channel 0, `WR_MEM_DATA.WIN` completes: that word of
window memory becomes the data, the cursor moves on by one, and nothing else changes. That it does so also under a cursor
whose `MSEL` names profile memory, which no step gives this row, is the model's choice (assumption 10). -/
def Obligations.WindowWriteStoresWord : Prop :=
  ∀ (s : State) (t : Time) (data cur : Word), checkedCursor s.cursor = .ok cur →
    ∃ s', exec (.wrMemDataWin t data) s = .next s' ∧
      s' = { s with win := s'.win, cursor := .value (cur + 1#32), pc := s.pc + 1 } ∧
      Memory.read s'.win (cursorWaddr cur).toNat = .value data ∧
      ∀ a, a ≠ (cursorWaddr cur).toNat → Memory.read s'.win a = Memory.read s.win a

/-- R104, R201, R205, R207, R212: a data write faults with `Unwritten` on a cursor never written, else with
`UnsupportedChannel` when `CURSOR >> 15` is not 0, else with `AddressRange` when `CURSOR[13:0]` is 1024 or more; it stores
nothing and leaves the cursor. Both data operations do so, and so does the step. -/
def Obligations.DataWriteFaultOrder : Prop :=
  ∀ (s : State) (cause : Cause),
    ((s.cursor = .unwritten ∧ cause = .unwritten) ∨
     (∃ c : Word, s.cursor = .value c ∧ c >>> 15 ≠ 0#32 ∧ cause = .unsupportedChannel) ∨
     (∃ c : Word, s.cursor = .value c ∧ c >>> 15 = 0#32 ∧ 1024 ≤ (c.extractLsb' 0 14).toNat ∧
       cause = .addressRange)) →
    (∀ t data, exec (.wrMemDataProf t data) s =
      .next { s with fault := some ⟨cause, t, s.config.addrMemData, data⟩ }) ∧
    (∀ t data, exec (.wrMemDataWin t data) s =
      .next { s with fault := some ⟨cause, t, s.config.addrMemData, data⟩ }) ∧
    (∀ ev, willRun s ev → ev.address = s.config.addrMemData →
      step s = .next { s with fault := some ⟨cause, ev.time, ev.address, ev.data⟩ })

/-- R111, R104 (the spec's choice D28): a burst of data writes after a cursor stores its words one after another in the
memory the cursor's bit 14 names, whatever their times, and in no other word of either memory. -/
def Obligations.BurstStoresConsecutiveWords : Prop :=
  ∀ (s : State) (cur : Word) (data : List Word),
    s.config.wf = true → s.fault = none → s.cursor = .value cur → cursorChan cur = 0#17 →
    (cursorWaddr cur).toNat + data.length ≤ 1024 →
    (∀ k, (h : k < data.length) →
      ∃ ev, s.events[s.pc + k]? = some ev ∧ ev.address = s.config.addrMemData ∧ ev.data = data[k]) →
    ∃ s' : State, Sys2Proof.core.run data.length s = .next s' ∧
      s' = { s with prof := s'.prof, win := s'.win, cursor := .value (cur + BitVec.ofNat 32 data.length),
                    pc := s.pc + data.length } ∧
      (∀ k, (h : k < data.length) →
        Memory.read (if cursorMsel cur = s.config.profileSel then s'.prof else s'.win)
          ((cursorWaddr cur).toNat + k) = .value data[k]) ∧
      (∀ a, (a < (cursorWaddr cur).toNat ∨ (cursorWaddr cur).toNat + data.length ≤ a) →
        Memory.read (if cursorMsel cur = s.config.profileSel then s'.prof else s'.win) a =
          Memory.read (if cursorMsel cur = s.config.profileSel then s.prof else s.win) a) ∧
      (if cursorMsel cur = s.config.profileSel then s'.win = s.win else s'.prof = s.prof)

/-- R104, R235 (faults: the spec's choice D5): a step on a data write that does not fault leaves a cursor with the same `CHAN`
and `MSEL` and a `WADDR` one more. If the next event is a data write too, it faults with `AddressRange` and changes nothing
else where the first stored word 1023, and does not fault where it stored another word. -/
def Obligations.CursorStaysInItsMemory : Prop :=
  ∀ (s t : State) (ev : Event), willRun s ev → ev.address = s.config.addrMemData → step s = .next t → t.fault = none →
    ∃ c d : Word, s.cursor = .value c ∧ t.cursor = .value d ∧
      cursorChan d = cursorChan c ∧ cursorMsel d = cursorMsel c ∧
      (cursorWaddr d).toNat = (cursorWaddr c).toNat + 1 ∧
      ∀ ev', nextEvent t = some ev' → ev'.address = s.config.addrMemData →
        ((cursorWaddr c).toNat = 1023 →
          step t = .next { t with fault := some ⟨.addressRange, ev'.time, ev'.address, ev'.data⟩ }) ∧
        ((cursorWaddr c).toNat ≠ 1023 → ∃ u, step t = .next u ∧ u.fault = none)

/-! Profile selection -/

/-- R107 (field order: the spec's choice D7): `WR_CFG1` with reserved bits 0 completes, sets `SEL[4..9]` to its six fields,
lowest first, and changes nothing else; no trigger is fired. -/
def Obligations.Cfg1SelectsFourToNine : Prop :=
  (∀ (s : State) (t : Time) (q4 q5 q6 q7 q8 q9 : BitVec 5),
    ∃ s', exec (.wrCfg1 t q4 q5 q6 q7 q8 q9 0#2) s = .next s' ∧
      s' = { s with sel := s'.sel, pc := s.pc + 1 } ∧
      s'.sel[4] = .value q4 ∧ s'.sel[5] = .value q5 ∧ s'.sel[6] = .value q6 ∧ s'.sel[7] = .value q7 ∧
      s'.sel[8] = .value q8 ∧ s'.sel[9] = .value q9 ∧
      ∀ o : Fin 16, (o.val < 4 ∨ 9 < o.val) → s'.sel[o] = s.sel[o]) ∧
  (∀ (s : State) (ev : Event), willRun s ev → ev.address = s.config.addrCfg1 → ev.data.extractLsb' 30 2 = 0#2 →
    ∃ s', step s = .next s' ∧ s' = { s with sel := s'.sel, pc := s.pc + 1 } ∧
      ∀ o : Fin 16, s'.sel[o] =
        if 4 ≤ o.val ∧ o.val ≤ 9 then .value (ev.data.extractLsb' (5 * (o.val - 4)) 5) else s.sel[o])

/-- R108 (field order: the spec's choice D7): `WR_CFG2` with reserved bits 0 completes, sets `SEL[10..15]` to its six fields,
lowest first, and changes nothing else; no trigger is fired. -/
def Obligations.Cfg2SelectsTenToFifteen : Prop :=
  (∀ (s : State) (t : Time) (q10 q11 q12 q13 q14 q15 : BitVec 5),
    ∃ s', exec (.wrCfg2 t q10 q11 q12 q13 q14 q15 0#2) s = .next s' ∧
      s' = { s with sel := s'.sel, pc := s.pc + 1 } ∧
      s'.sel[10] = .value q10 ∧ s'.sel[11] = .value q11 ∧ s'.sel[12] = .value q12 ∧ s'.sel[13] = .value q13 ∧
      s'.sel[14] = .value q14 ∧ s'.sel[15] = .value q15 ∧
      ∀ o : Fin 16, o.val < 10 → s'.sel[o] = s.sel[o]) ∧
  (∀ (s : State) (ev : Event), willRun s ev → ev.address = s.config.addrCfg2 → ev.data.extractLsb' 30 2 = 0#2 →
    ∃ s', step s = .next s' ∧ s' = { s with sel := s'.sel, pc := s.pc + 1 } ∧
      ∀ o : Fin 16, s'.sel[o] =
        if 10 ≤ o.val then .value (ev.data.extractLsb' (5 * (o.val - 10)) 5) else s.sel[o])

/-- R206 (the spec's choice D7), R210: a configuration write with data bit 30 or 31 set faults with `ReservedBits` and
changes nothing else, for each of the three registers. -/
def Obligations.ReservedDataBitsFault : Prop :=
  ∀ (s : State) (ev : Event), willRun s ev →
    (ev.address = s.config.addrCfg0 ∨ ev.address = s.config.addrCfg1 ∨ ev.address = s.config.addrCfg2) →
    ev.data.extractLsb' 30 2 ≠ 0#2 →
    step s = .next { s with fault := some ⟨.reservedBits, ev.time, ev.address, ev.data⟩ }

/-- R46: a repeated identical write of `MEM_ADDR`, `CFG1` or `CFG2` changes nothing more. A repeated data write stores the same
data again at the next word of the same memory; the first word keeps its value, no other word of either memory changes, and
the cursor has moved on by two. A repeated trigger appends another result. -/
def Obligations.RepeatedWrites : Prop :=
  (∀ (s t : State) (i : Instr), (i.register = .memAddr ∨ i.register = .cfg1 ∨ i.register = .cfg2) →
    s.fault = none → exec i s = .next t → t.fault = none → exec i t = .next { t with pc := t.pc + 1 }) ∧
  (∀ (s t u : State) (ev ev' : Event), willRun s ev → ev.address = s.config.addrMemData →
    step s = .next t → t.fault = none → nextEvent t = some ev' → ev'.address = ev.address → ev'.data = ev.data →
    step t = .next u → u.fault = none →
    ∃ c : Word, s.cursor = .value c ∧ t.cursor = .value (c + 1#32) ∧ u.cursor = .value (c + 2#32) ∧
      let profile := cursorMsel c = s.config.profileSel
      let w := (cursorWaddr c).toNat
      Memory.read (if profile then t.prof else t.win) w = .value ev.data ∧
      Memory.read (if profile then u.prof else u.win) w = .value ev.data ∧
      Memory.read (if profile then u.prof else u.win) (w + 1) = .value ev.data ∧
      (∀ a, a ≠ w → a ≠ w + 1 →
        Memory.read (if profile then u.prof else u.win) a = Memory.read (if profile then s.prof else s.win) a) ∧
      (if profile then u.win = s.win else u.prof = s.prof)) ∧
  (∀ (s t u : State) (i : Instr), i.register = .memData → s.fault = none → exec i s = .next t → t.fault = none →
    exec i t = .next u → u.fault = none →
    ∃ c : Word, s.cursor = .value c ∧ t.cursor = .value (c + 1#32) ∧ u.cursor = .value (c + 2#32)) ∧
  (∀ (s t u : State) (i : Instr), i.register = .cfg0 → s.fault = none → exec i s = .next t → t.fault = none →
    exec i t = .next u → u.fault = none ∧ ∃ p, t.out = s.out ++ [p] ∧ u.out = t.out ++ [p])

/-! The trigger -/

/-- R187, R186, R109, R67, R181 (selection before the trigger: the spec's choice D8; field order: D7): a `WR_CFG0` with reserved
bits 0 whose window, sample time and oscillator lookups (with the new selection) succeed completes: it selects, appends one
result and changes nothing else. On a step, the window starts at data bits 9:0 and `SEL[k]` is data bits 14+5k:10+5k. -/
def Obligations.TriggerSelectsAndEmits : Prop :=
  (∀ (s : State) (t : Time) (start : BitVec 10) (q0 q1 q2 q3 : BitVec 5) (sel : Selection) (env : List (Cx ℚ))
    (st : Time) (oscs : List Osc),
    (∀ o : Fin 16, sel[o] =
      if o.val = 0 then .value q0 else if o.val = 1 then .value q1 else if o.val = 2 then .value q2
      else if o.val = 3 then .value q3 else s.sel[o]) →
    reconstruct s.win start = .ok env → sampleTime s.config t = .ok st →
    lookupAll sel s.prof oscillators = .ok oscs →
    exec (.wrCfg0 t start q0 q1 q2 q3 0#2) s =
      .next { s with sel := sel, out := s.out ++ [⟨st, waveform st.toInt oscs env⟩], pc := s.pc + 1 }) ∧
  (∀ (s : State) (ev : Event) (sel : Selection) (env : List (Cx ℚ)) (st : Time) (oscs : List Osc),
    willRun s ev → ev.address = s.config.addrCfg0 → ev.data.extractLsb' 30 2 = 0#2 →
    (∀ o : Fin 16, sel[o] = if o.val < 4 then .value (ev.data.extractLsb' (10 + 5 * o.val) 5) else s.sel[o]) →
    reconstruct s.win (ev.data.extractLsb' 0 10) = .ok env → sampleTime s.config ev.time = .ok st →
    lookupAll sel s.prof oscillators = .ok oscs →
    step s = .next { s with sel := sel, out := s.out ++ [⟨st, waveform st.toInt oscs env⟩], pc := s.pc + 1 })

/-- R212 (the spec's choice D23), R210 (D15): a `WR_CFG0` with reserved bits 0 reports the fault of its first failing stage, in
the order window, sample time, oscillators, and then neither selects nor emits. -/
def Obligations.TriggerFaultOrder : Prop :=
  ∀ (s : State) (t : Time) (start : BitVec 10) (q0 q1 q2 q3 : BitVec 5) (cause : Cause),
    (reconstruct s.win start = .error cause ∨
     ((∃ env, reconstruct s.win start = .ok env) ∧ sampleTime s.config t = .error cause) ∨
     ((∃ env, reconstruct s.win start = .ok env) ∧ (∃ st, sampleTime s.config t = .ok st) ∧
       lookupAll (selectFrom s.sel 0 [q0, q1, q2, q3]) s.prof oscillators = .error cause)) →
    exec (.wrCfg0 t start q0 q1 q2 q3 0#2) s =
      .next { s with fault := some ⟨cause, t, s.config.addrCfg0, cfg0Word start q0 q1 q2 q3 0#2⟩ }

/-- R232: when the window, the selections and the profile words that R232 lists have been written, the window's length is
consistent (R139) and the sample time is valid (R182), a `WR_CFG0` completes without a fault and emits one waveform of
`(L + order) * rate - order` samples. -/
def Obligations.ReadyTriggerCompletes : Prop :=
  ∀ (s : State) (t st : Time) (start : BitVec 10) (q0 q1 q2 q3 : BitVec 5) (word : Word),
    windowReady s.win start → windowConsistent s.win start → Memory.read s.win start.toNat = .value word →
    (∀ o, oscillatorReady (selectFrom s.sel 0 [q0, q1, q2, q3]) s.prof o) →
    (st.toInt : ℚ) = (t.toInt : ℚ) * s.config.clockRatio →
    ∃ s' p, exec (.wrCfg0 t start q0 q1 q2 q3 0#2) s = .next s' ∧ s'.fault = s.fault ∧ s'.out = s.out ++ [p] ∧
      p.sampleTime = st ∧
      p.waveform.length =
        ((headerOf word).length + (headerOf word).order) * (headerOf word).rate - (headerOf word).order

/-- R232: a `WR_CFG0` that emits a result found its window and every oscillator's words written, as R232 requires. -/
def Obligations.CompletedTriggerWasReady : Prop :=
  ∀ (s s' : State) (t : Time) (start : BitVec 10) (q0 q1 q2 q3 : BitVec 5) (rsvd : BitVec 2),
    exec (.wrCfg0 t start q0 q1 q2 q3 rsvd) s = .next s' → s'.out ≠ s.out →
    rsvd = 0#2 ∧ windowReady s.win start ∧ windowConsistent s.win start ∧
      ∀ o, oscillatorReady (selectFrom s.sel 0 [q0, q1, q2, q3]) s.prof o

/-- The frame of `WR_CFG0` whether it completes or faults (R109, R186, R210): no word of either memory, not the cursor, no
selection of oscillators 4 to 15, no parameter and no event changes. -/
def Obligations.TriggerFrame : Prop :=
  ∀ (s s' : State) (t : Time) (start : BitVec 10) (q0 q1 q2 q3 : BitVec 5) (rsvd : BitVec 2),
    exec (.wrCfg0 t start q0 q1 q2 q3 rsvd) s = .next s' →
    (∀ a, Memory.read s'.prof a = Memory.read s.prof a) ∧ (∀ a, Memory.read s'.win a = Memory.read s.win a) ∧
    s'.prof = s.prof ∧ s'.win = s.win ∧ s'.cursor = s.cursor ∧ (∀ o : Fin 16, 4 ≤ o.val → s'.sel[o] = s.sel[o]) ∧
    s'.config = s.config ∧ s'.events = s.events

/-- R190, R51: a trigger's result depends only on its time, the parameters, the selections and the words it reads: two
states that agree on those give the same result or the same fault, whatever else they hold. -/
def Obligations.ResultDependsOnlyOnReads : Prop :=
  ∀ (s s' : State) (t : Time) (start : BitVec 10) (q0 q1 q2 q3 : BitVec 5),
    s.config = s'.config → s.sel = s'.sel →
    (∀ a, (MemoryName.win, a) ∈ readsOf s (.wrCfg0 t start q0 q1 q2 q3 0#2) →
      Memory.read s.win a = Memory.read s'.win a) →
    (∀ a, (MemoryName.prof, a) ∈ readsOf s (.wrCfg0 t start q0 q1 q2 q3 0#2) →
      Memory.read s.prof a = Memory.read s'.prof a) →
    synthesise s.config (selectFrom s.sel 0 [q0, q1, q2, q3]) s.prof s.win start t =
      synthesise s'.config (selectFrom s'.sel 0 [q0, q1, q2, q3]) s'.prof s'.win start t

/-- R182 (integrality and range: the spec's choice D13): the sample time is `time * CLOCK_RATIO` exactly where that is an
`i64`, and faults with `SampleTimeInvalid` where it is not. -/
def Obligations.SampleTimeIsExact : Prop :=
  ∀ (c : Config) (t : Time),
    (∀ st : Time, sampleTime c t = .ok st ↔ (st.toInt : ℚ) = (t.toInt : ℚ) * c.clockRatio) ∧
    ((∀ st : Time, (st.toInt : ℚ) ≠ (t.toInt : ℚ) * c.clockRatio) → sampleTime c t = .error .sampleTimeInvalid)

/-! The window interpolator -/

/-- R203, R132: a header that does not have both markers raises `UnsupportedWindowSegment`, whatever its other bits are and
before any sample is read, and the trigger that reads it records that fault. -/
def Obligations.UnmarkedHeaderFaults : Prop :=
  ∀ (s : State) (t : Time) (start : BitVec 10) (q0 q1 q2 q3 : BitVec 5) (word : Word),
    Memory.read s.win start.toNat = .value word → ¬(word.extractLsb' 30 1 = 1#1 ∧ word.extractLsb' 31 1 = 1#1) →
    reconstruct s.win start = .error .unsupportedWindowSegment ∧
    ∃ s', exec (.wrCfg0 t start q0 q1 q2 q3 0#2) s = .next s' ∧
      s'.fault = some ⟨.unsupportedWindowSegment, t, s.config.addrCfg0, cfg0Word start q0 q1 q2 q3 0#2⟩

/-- R130, R212 (the spec's choices D14, D16, D17, D18, D23): the faults of a reconstruction in their order: header unwritten;
markers; reserved bits; window end; a sample unwritten; an empty window of inconsistent length. -/
def Obligations.ReconstructFaultOrder : Prop :=
  ∀ (win : Memory) (start : BitVec 10),
    (Memory.read win start.toNat = .unwritten → reconstruct win start = .error .unwritten) ∧
    ∀ word, Memory.read win start.toNat = .value word →
      (¬((headerOf word).head = 1#1 ∧ (headerOf word).tail = 1#1) →
        reconstruct win start = .error .unsupportedWindowSegment) ∧
      ((headerOf word).head = 1#1 → (headerOf word).tail = 1#1 →
        ((headerOf word).rsvd ≠ 0#2 → reconstruct win start = .error .reservedBits) ∧
        ((headerOf word).rsvd = 0#2 →
          (1023 < start.toNat + (headerOf word).length → reconstruct win start = .error .addressRange) ∧
          (start.toNat + (headerOf word).length ≤ 1023 →
            ((∃ k, 1 ≤ k ∧ k ≤ (headerOf word).length ∧ Memory.read win (start.toNat + k) = .unwritten) →
              reconstruct win start = .error .unwritten) ∧
            ((headerOf word).length = 0 → 1 ≤ (headerOf word).order → 2 ≤ (headerOf word).rate →
              reconstruct win start = .error .internalConsistency))))

/-- R130, R133, R138 (exact scaling: the spec's choice D12), R142: a ready window of consistent length gives an envelope of
`(L + order) * rate - order` values: the cascade over the held samples, each divided by `2^shift`, exactly. -/
def Obligations.EnvelopeOfReadyWindow : Prop :=
  ∀ (win : Memory) (start : BitVec 10) (word : Word),
    windowReady win start → windowConsistent win start → Memory.read win start.toNat = .value word →
    ∃ x env, reconstruct win start = .ok env ∧ x.length = (headerOf word).length ∧
      (∀ k, (h : k < x.length) → ∃ w, Memory.read win (start.toNat + 1 + k) = .value w ∧
        x[k] = ⟨(w.extractLsb' 0 16).toInt, (w.extractLsb' 16 16).toInt⟩) ∧
      env.length = ((headerOf word).length + (headerOf word).order) * (headerOf word).rate - (headerOf word).order ∧
      ∀ m : Nat, env[m]? =
        ((cascade (headerOf word).rate (headerOf word).order (hold x (headerOf word).rate))[m]?).map fun (y : Cx ℤ) =>
          (⟨(y.re : ℚ) / 2 ^ (headerOf word).shift, (y.im : ℚ) / 2 ^ (headerOf word).shift⟩ : Cx ℚ)

/-- R134: the hold output has length `L * rate`, and element `k` is sample `k div rate`. -/
def Obligations.HoldRepeatsEachSample : Prop :=
  ∀ (x : List (Cx ℤ)) (rate : Nat),
    (hold x rate).length = x.length * rate ∧
    ∀ k, k < x.length * rate → (hold x rate)[k]? = x[k / rate]?

/-- R135: a boxcar pass is the full convolution with `rate` ones: length `len(x) + rate - 1`, element `m` the sum of the
`x[m - j]` for `j` below `rate`, 0 outside the list, real and imaginary parts apart; an empty list stays empty. -/
def Obligations.BoxIsFullConvolution : Prop :=
  (∀ rate, box [] rate = []) ∧
  ∀ (x : List (Cx ℤ)) (rate : Nat), x ≠ [] → 1 ≤ rate →
    (box x rate).length = x.length + rate - 1 ∧
    ∀ m, m < x.length + rate - 1 →
      (box x rate)[m]? = some
        ⟨∑ j ∈ Finset.range rate, (if j ≤ m ∧ m - j < x.length then (x.getD (m - j) ⟨0, 0⟩).re else 0),
         ∑ j ∈ Finset.range rate, (if j ≤ m ∧ m - j < x.length then (x.getD (m - j) ⟨0, 0⟩).im else 0)⟩

/-- R136: the pass is applied `order` times in succession, first to the hold output and then to each pass's result; order
0 applies none. -/
def Obligations.CascadeAppliesOrderPasses : Prop :=
  ∀ (rate order : Nat) (y : List (Cx ℤ)),
    cascade rate order y = (fun z => box z rate)^[order] y ∧ cascade rate 0 y = y ∧
    cascade rate (order + 1) y = box (cascade rate order y) rate

/-- R137, R139 (empty windows: the spec's choice D16): the length check passes for every window with a sample, and fails
exactly for an empty window with a pass and a rate of 2 or more. -/
def Obligations.LengthCheckFailsOnlyWhenEmpty : Prop :=
  ∀ (x : List (Cx ℤ)) (rate order : Nat), 1 ≤ rate →
    (x ≠ [] → (cascade rate order (hold x rate)).length = (x.length + order) * rate - order) ∧
    ((cascade rate order (hold x rate)).length ≠ (x.length + order) * rate - order ↔
      x = [] ∧ 1 ≤ order ∧ 2 ≤ rate)

/-- R140: order 1 is linear interpolation: a ramp from the previous sample to each sample, from 0 before the first and back
to 0 after the last, real and imaginary parts apart. -/
def Obligations.OrderOneIsLinearInterpolation : Prop :=
  ∀ (x : List (Cx ℤ)) (rate k r : Nat), 1 ≤ rate → r < rate →
    (k < x.length →
      (cascade rate 1 (hold x rate))[k * rate + r]? = some
        ⟨((r : ℤ) + 1) * (x.getD k ⟨0, 0⟩).re +
            ((rate : ℤ) - 1 - r) * (if k = 0 then 0 else (x.getD (k - 1) ⟨0, 0⟩).re),
         ((r : ℤ) + 1) * (x.getD k ⟨0, 0⟩).im +
            ((rate : ℤ) - 1 - r) * (if k = 0 then 0 else (x.getD (k - 1) ⟨0, 0⟩).im)⟩) ∧
    (x ≠ [] → r + 1 < rate →
      (cascade rate 1 (hold x rate))[x.length * rate + r]? = some
        ⟨((rate : ℤ) - 1 - r) * (x.getD (x.length - 1) ⟨0, 0⟩).re,
         ((rate : ℤ) - 1 - r) * (x.getD (x.length - 1) ⟨0, 0⟩).im⟩)

/-- R141: each pass multiplies the largest magnitude by at most `rate`: for samples of 16 signed bits, every part of the
cascade lies between `-2^15 * rate^order` and `(2^15 - 1) * rate^order`. -/
def Obligations.CascadeStaysWithinGain : Prop :=
  ∀ (words : List Word) (rate order : Nat), 1 ≤ rate →
    ∀ y ∈ cascade rate order (hold (words.map sampleOf) rate),
      (-2 ^ 15 * (rate : ℤ) ^ order ≤ y.re ∧ y.re ≤ (2 ^ 15 - 1) * (rate : ℤ) ^ order) ∧
      (-2 ^ 15 * (rate : ℤ) ^ order ≤ y.im ∧ y.im ≤ (2 ^ 15 - 1) * (rate : ℤ) ^ order)

/-! The phase accumulator -/

/-- R162, R163 (add before output: the spec's choice D9): the accumulator gives `n` phases, and phase `j` is
`(p << 16) + f * (st + j)` mod `2^32`. -/
def Obligations.PhaseClosedForm : Prop :=
  ∀ (o : Osc) (st : Int) (n : Nat),
    (phases o.freq (phaseInit o st) n).length = n ∧
    ∀ j, j < n → (phases o.freq (phaseInit o st) n)[j]? =
      some (BitVec.ofInt 32 ((o.phaseOffset.toNat : Int) * 2 ^ 16 + o.freq.toInt * (st + j)))

/-- R167, R168: the phase depends on the absolute sample index `st + j` alone, and on that only mod `2^32`: two triggers on
the same entry give it the phases of one continuous oscillator. -/
def Obligations.PhaseDependsOnSampleIndexOnly : Prop :=
  ∀ (o : Osc) (st st' : Int) (n n' j j' : Nat), j < n → j' < n' →
    (st + j) % 2 ^ 32 = (st' + j') % 2 ^ 32 →
    (phases o.freq (phaseInit o st) n)[j]? = (phases o.freq (phaseInit o st') n')[j']?

/-- R161: an entry of amplitude 0 is inactive without its frequency word being read (the spec's choice D26), and counting it as
active would change no sum, for any `CIS` over any field. -/
def Obligations.InactiveOscillatorAddsNothing : Prop :=
  (∀ (sel : Selection) (prof : Memory) (o : Fin 16) (q : BitVec 5) (wa : Word), sel[o] = .value q →
    Memory.read prof (ampphAddr o q) = .value wa → ampOf wa = 0#16 → lookup sel prof o = .ok none) ∧
  ∀ (K : Type) [Field K] (cis : BitVec 32 → Cx K) (st : Int) (n : Nat) (before after : List Osc) (f : Word)
    (p : BitVec 16),
    (oscSum st n (before ++ { freq := f, amplitude := 0#16, phaseOffset := p } :: after)).map (CisSum.value cis) =
      (oscSum st n (before ++ after)).map (CisSum.value cis)

/-- R166: the order in which the oscillators are added has no effect on the sum, for any `CIS` over any field. -/
def Obligations.OscillatorOrderHasNoEffect : Prop :=
  ∀ (K : Type) [Field K] (cis : BitVec 32 → Cx K) (st : Int) (n : Nat) (oscs oscs' : List Osc), oscs.Perm oscs' →
    (oscSum st n oscs).map (CisSum.value cis) = (oscSum st n oscs').map (CisSum.value cis)

/-- R160, R165, R166 under `CIS_REF`: no sample of the sum of at most 16 oscillators exceeds `16 * 65535` in magnitude. -/
def Obligations.ReferenceSumMagnitude : Prop :=
  ∀ (num : Numerics ℝ) (st : Int) (n : Nat) (oscs : List Osc), num.Reference → oscs.length ≤ 16 →
    ∀ p ∈ oscSum st n oscs,
      (CisSum.value num.cis p).re ^ 2 + (CisSum.value num.cis p).im ^ 2 ≤ (16 * 65535 : ℝ) ^ 2

/-! The complex multiplier -/

/-- R163, R165, R184, R185, R188 (with D9): the waveform has one sample for each of the envelope, and sample `j` is
`QUANT_OUT((sum over active o of a_o * CIS(ph_o)) * env[j] * 2^-31)` with the phases of sample index `st + j`, for every
`CIS` and `QUANT_OUT` over every field of characteristic 0. -/
def Obligations.WaveformSampleFormula : Prop :=
  ∀ (K : Type) [Field K] [CharZero K] (num : Numerics K) (st : Int) (oscs : List Osc) (env : List (Cx ℚ)),
    (waveform st oscs env).length = env.length ∧
    ∀ j, (h : j < env.length) →
      let cis := fun o : Osc =>
        num.cis (BitVec.ofInt 32 ((o.phaseOffset.toNat : Int) * 2 ^ 16 + o.freq.toInt * (st + j)))
      let re := (oscs.map fun o => (o.amplitude.toNat : K) * (cis o).re).sum
      let im := (oscs.map fun o => (o.amplitude.toNat : K) * (cis o).im).sum
      ((waveform st oscs env).map (Sample.value num))[j]? = some (num.quantOut
        ⟨(re * (env[j].re : K) - im * (env[j].im : K)) / 2 ^ 31,
         (re * (env[j].im : K) + im * (env[j].re : K)) / 2 ^ 31⟩)

/-- R187, the rule's example (program P1 of the spec's vectors): for every `CIS` exact at the quarter turns and the
identity quantiser, over every field of characteristic 0, the result is `(39, [(0, -1/4), (1/4, 0)])`. -/
def Obligations.QuarterTurnPulse : Prop :=
  ∀ (K : Type) [Field K] [CharZero K] (num : Numerics K) (c : Config) (prof win : Memory),
    num.Quarter → num.Exact → c.clockRatio = 1 →
    Memory.read prof 0 = .value 0x40000000#32 → Memory.read prof 1 = .value 0x00008000#32 →
    (∀ k, 1 ≤ k → k ≤ 15 → Memory.read prof (64 * k + 1) = .value 0#32) →
    Memory.read win 0 = .value 0xC0000002#32 → Memory.read win 1 = .value 0x00004000#32 →
    Memory.read win 2 = .value 0x00004000#32 →
    ∃ p, synthesise c (Vector.replicate 16 (.value 0#5)) prof win 0#10 39#64 = .ok p ∧
      p.sampleTime = 39#64 ∧ Pulse.values num p = [⟨0, -1 / 4⟩, ⟨1 / 4, 0⟩]

/-! Runs -/

/-- R100: the replay order is ascending in `time`, holds the same events, and keeps events of equal time in their
input order; the run starts at index 0 of it. -/
def Obligations.ReplayOrderIsStableSort : Prop :=
  ∀ (c : Config) (events : List Event),
    (replayOrder events).Pairwise (fun a b => a.time.toInt ≤ b.time.toInt) ∧
    (replayOrder events).Perm events ∧
    (∀ t : Time, (replayOrder events).filter (fun ev => ev.time == t) = events.filter (fun ev => ev.time == t)) ∧
    (start c events).events = replayOrder events ∧ (start c events).pc = 0

/-- R100: replay does not depend on recording order, where the times are distinct. -/
def Obligations.RunIgnoresRecordingOrder : Prop :=
  ∀ (c : Config) (events events' : List Event), events.Perm events' → (events.map Event.time).Nodup →
    replay c events = replay c events'

/-- R102: a run with no events ends at once with `OUT` empty and no fault. -/
def Obligations.EmptyRunGivesEmptyOutput : Prop :=
  ∀ c : Config, c.wf = true → replay c [] = .ok []

/-- R16, R219, R209, R210 (the spec's choice D15): every run of well-formed parameters either processes all its events and
is observed as `Ok(OUT)`, or stops at its first fault and is observed as `Err(FAULT)`, with `pc` at the failing event,
whose time, address and data the record holds. -/
def Obligations.RunCompletesOrStopsAtFirstFault : Prop :=
  ∀ (c : Config) (events : List Event), c.wf = true →
    (∃ s : State, Sys2Proof.core.run events.length (start c events) = .next s ∧ s.fault = none ∧
      s.pc = events.length ∧ replay c events = .ok s.out) ∨
    (∃ (k : Nat) (s : State) (ev : Event) (cause : Cause),
      Sys2Proof.core.run (k + 1) (start c events) = .next s ∧ s.pc = k ∧ (replayOrder events)[k]? = some ev ∧
      s.fault = some ⟨cause, ev.time, ev.address, ev.data⟩ ∧
      replay c events = .err ⟨cause, ev.time, ev.address, ev.data⟩)

/-- R210 (the spec's choice D15), R209: a faulting event changes no state except `FAULT`, and the record holds the event. -/
def Obligations.FaultsArePrecise : Prop :=
  ∀ s t : State, step s = .next t → t.fault ≠ none →
    ∃ ev cause, nextEvent s = some ev ∧ t = { s with fault := some ⟨cause, ev.time, ev.address, ev.data⟩ }

/-- R27: after each event that does not fault, `pc` advances by one; it never jumps. -/
def Obligations.PcAdvancesByOne : Prop :=
  ∀ (s t : State) (ev : Event), nextEvent s = some ev → step s = .next t →
    (t.fault = none → t.pc = s.pc + 1) ∧ (t.fault ≠ none → t.pc = s.pc)

/-- R32: only the writes that R103 to R109 name change `CURSOR`, `SEL`, `PROF` and `WIN`: the cursor by the two memory
registers, the memories by the data register and there only at the cursor's word, and each selection by its own
configuration register. -/
def Obligations.OnlyNamedWritesChangeState : Prop :=
  ∀ (s t : State), step s = .next t →
    (t.cursor ≠ s.cursor → ∃ ev, nextEvent s = some ev ∧
      (ev.address = s.config.addrMemAddr ∨ ev.address = s.config.addrMemData)) ∧
    (∀ a, Memory.read t.prof a ≠ Memory.read s.prof a → ∃ ev cur, nextEvent s = some ev ∧
      ev.address = s.config.addrMemData ∧ s.cursor = .value cur ∧ cursorMsel cur = s.config.profileSel ∧
      a = (cursorWaddr cur).toNat ∧ Memory.read t.prof a = .value ev.data) ∧
    (∀ a, Memory.read t.win a ≠ Memory.read s.win a → ∃ ev cur, nextEvent s = some ev ∧
      ev.address = s.config.addrMemData ∧ s.cursor = .value cur ∧ cursorMsel cur ≠ s.config.profileSel ∧
      a = (cursorWaddr cur).toNat ∧ Memory.read t.win a = .value ev.data) ∧
    (∀ o : Fin 16, t.sel[o] ≠ s.sel[o] → ∃ ev, nextEvent s = some ev ∧
      ev.address = (if o.val < 4 then s.config.addrCfg0 else if o.val < 10 then s.config.addrCfg1
        else s.config.addrCfg2))

/-- R17, R26, R180: no step changes a result already emitted; a result is appended by a write to `CFG0` alone, one at a
time. The parameters and the event list never change (the model's own fields). -/
def Obligations.OutputOnlyGrowsAtTriggers : Prop :=
  ∀ s t : State, step s = .next t →
    t.config = s.config ∧ t.events = s.events ∧
    (t.out = s.out ∨ ∃ ev p, nextEvent s = some ev ∧ ev.address = s.config.addrCfg0 ∧ t.out = s.out ++ [p])

/-! Invariants -/

/-- Every step keeps both memories in canonical form. That every address is below 1024 is R23, R24 and R41; that addresses
are strictly rising is the model's choice of form (assumption 5). -/
def Obligations.StepKeepsCanonicalMemory : Prop :=
  ∀ s t : State, Memory.wf s.prof = true ∧ Memory.wf s.win = true → step s = .next t →
    Memory.wf t.prof = true ∧ Memory.wf t.win = true

/-- The canonical form, the model's choice (assumption 5), holds at reset, whatever the parameters. -/
def Obligations.ResetMemoryCanonical : Prop :=
  (∀ c : Config, Memory.wf (State.resetWith c).prof = true ∧ Memory.wf (State.resetWith c).win = true) ∧
  Memory.wf State.reset.prof = true ∧ Memory.wf State.reset.win = true

/-- Output ordering matches ascending trigger time (R26, R100, R182): every step keeps that the events are in time order,
that the results are in sample-time order, and that no event still to come is earlier than a result. -/
def Obligations.StepKeepsOutputOrder : Prop :=
  ∀ s t : State,
    s.events.Pairwise (fun a b => a.time.toInt ≤ b.time.toInt) ∧
    s.out.Pairwise (fun p q => p.sampleTime.toInt ≤ q.sampleTime.toInt) ∧
    (∀ p ∈ s.out, ∀ ev ∈ s.events.drop s.pc,
      (p.sampleTime.toInt : ℚ) ≤ (ev.time.toInt : ℚ) * s.config.clockRatio) →
    step s = .next t →
    t.events.Pairwise (fun a b => a.time.toInt ≤ b.time.toInt) ∧
    t.out.Pairwise (fun p q => p.sampleTime.toInt ≤ q.sampleTime.toInt) ∧
    (∀ p ∈ t.out, ∀ ev ∈ t.events.drop t.pc,
      (p.sampleTime.toInt : ℚ) ≤ (ev.time.toInt : ℚ) * t.config.clockRatio)

/-- R180, R186: every step keeps that there is one result for each `CFG0` write processed so far, and none for any other. -/
def Obligations.StepKeepsOneResultPerTrigger : Prop :=
  ∀ s t : State,
    s.out.length = (s.events.take s.pc).countP (fun ev => ev.address == s.config.addrCfg0) →
    step s = .next t →
    t.out.length = (t.events.take t.pc).countP (fun ev => ev.address == t.config.addrCfg0)

/-- The two run invariants (output order, one result for each trigger) hold where a run starts, for every parameter record
and every list of events. -/
def Obligations.StartMeetsRunInvariants : Prop :=
  ∀ (c : Config) (events : List Event),
    (start c events).events.Pairwise (fun a b => a.time.toInt ≤ b.time.toInt) ∧
    (start c events).out.Pairwise (fun p q => p.sampleTime.toInt ≤ q.sampleTime.toInt) ∧
    (∀ p ∈ (start c events).out, ∀ ev ∈ (start c events).events.drop (start c events).pc,
      (p.sampleTime.toInt : ℚ) ≤ (ev.time.toInt : ℚ) * (start c events).config.clockRatio) ∧
    (start c events).out.length =
      ((start c events).events.take (start c events).pc).countP
        (fun ev => ev.address == (start c events).config.addrCfg0)

/-! Notation and codes -/

/-- R75, R23, R105: the burst `SETPROF` writes both words of entry `(o, q)`: its frequency and its amplitude and phase; it
changes no other word of either memory and leaves the cursor at the next entry's first word. -/
def Obligations.SetProfProgramsEntry : Prop :=
  ∀ (s : State) (t : Time) (o : BitVec 4) (q : BitVec 5) (f : Int) (a p : BitVec 16),
    s.config.wf = true → s.fault = none →
    (∀ k, k < 3 → s.events[s.pc + k]? = (setProf s.config t o q f a p)[k]?) →
    ∃ s' : State, Sys2Proof.core.run 3 s = .next s' ∧
      s' = { s with prof := s'.prof, cursor := s'.cursor, pc := s.pc + 3 } ∧
      (∃ cur : Word, s'.cursor = .value cur ∧ cursorMsel cur = s.config.profileSel ∧ cursorChan cur = 0#17 ∧
        (cursorWaddr cur).toNat = o.toNat * 64 + q.toNat * 2 + 2) ∧
      Memory.read s'.prof (freqAddr o.toNat q) = .value (BitVec.ofInt 32 f) ∧
      (∃ w, Memory.read s'.prof (ampphAddr o.toNat q) = .value w ∧ ampOf w = a ∧ phaseOffsetOf w = p) ∧
      ∀ b, b ≠ freqAddr o.toNat q → b ≠ ampphAddr o.toNat q → Memory.read s'.prof b = Memory.read s.prof b

/-- R200 (the spec's choice D31): the numeric codes of the eight causes. -/
def Obligations.CauseCodes : Prop :=
  causeCode .unsupportedChannel = 1 ∧ causeCode .unknownAddress = 2 ∧ causeCode .unsupportedWindowSegment = 3 ∧
  causeCode .internalConsistency = 4 ∧ causeCode .addressRange = 5 ∧ causeCode .reservedBits = 6 ∧
  causeCode .unwritten = 7 ∧ causeCode .sampleTimeInvalid = 8 ∧
  ∀ a b : Cause, causeCode a = causeCode b → a = b

/-! The oscillators' lookups -/

/-- R160, R23, R64, R207 (layout: the spec's choice D4; faults: D14): every active oscillator's entry is its frequency word at
`o*64 + q*2` and the amplitude (bits 15:0) and phase offset (bits 31:16) of the word at `o*64 + q*2 + 1`. An unwritten
selection, an unwritten amplitude/phase word, or an unwritten frequency word of an active entry is `Unwritten`. A trigger
takes the active entries of oscillators 0 to 15 in ascending order, and where its window and sample time are good and some
oscillator's words are not written it faults with `Unwritten` and changes nothing else (D15). -/
def Obligations.LookupReadsSelectedEntry : Prop :=
  (∀ (sel : Selection) (prof : Memory) (o : Fin 16),
    (sel[o] = .unwritten → lookup sel prof o = .error .unwritten) ∧
    ∀ q : BitVec 5, sel[o] = .value q →
      (Memory.read prof (o.val * 64 + q.toNat * 2 + 1) = .unwritten → lookup sel prof o = .error .unwritten) ∧
      ∀ wa : Word, Memory.read prof (o.val * 64 + q.toNat * 2 + 1) = .value wa → wa.extractLsb' 0 16 ≠ 0#16 →
        (Memory.read prof (o.val * 64 + q.toNat * 2) = .unwritten → lookup sel prof o = .error .unwritten) ∧
        ∀ wf : Word, Memory.read prof (o.val * 64 + q.toNat * 2) = .value wf →
          lookup sel prof o =
            .ok (some { freq := wf, amplitude := wa.extractLsb' 0 16, phaseOffset := wa.extractLsb' 16 16 })) ∧
  (∀ (sel : Selection) (prof : Memory) (entry : Fin 16 → Option Osc), (∀ o, lookup sel prof o = .ok (entry o)) →
    lookupAll sel prof oscillators = .ok ((List.finRange 16).filterMap entry)) ∧
  (∀ (s : State) (t st : Time) (start : BitVec 10) (q0 q1 q2 q3 : BitVec 5) (env : List (Cx ℚ)),
    reconstruct s.win start = .ok env → sampleTime s.config t = .ok st →
    (∃ o, ¬oscillatorReady (selectFrom s.sel 0 [q0, q1, q2, q3]) s.prof o) →
    exec (.wrCfg0 t start q0 q1 q2 q3 0#2) s =
      .next { s with fault := some ⟨.unwritten, t, s.config.addrCfg0, cfg0Word start q0 q1 q2 q3 0#2⟩ })
end

