-- ==== Sys2Proof/Laws/Decode.lean ====
section
/-! SUPPORT. What the address decode and the cursor check can answer. -/

namespace Sys2Proof

/-- An address that selects a register is that register's address. -/
theorem Config.addressOf_of_registerAt {c : Config} {a : Word} {r : Register} (h : c.registerAt a = some r) :
    c.addressOf r = a := by
  unfold Config.registerAt at h
  repeat' split at h
  all_goals first
    | (cases h; simp_all [Config.addressOf])
    | exact absurd h (by simp)

/-- The parts of a well-formed parameter record. -/
theorem Config.wf_iff (c : Config) : c.wf = true ↔ c.addresses.Nodup ∧ 0 < c.clockRatio := by
  simp [Config.wf]

/-- With distinct addresses, a register's address selects it. -/
theorem Config.registerAt_addressOf {c : Config} (h : c.wf = true) (r : Register) :
    c.registerAt (c.addressOf r) = some r := by
  obtain ⟨h, -⟩ := (Config.wf_iff c).1 h
  simp only [Config.addresses, List.nodup_cons, List.mem_cons, not_or] at h
  obtain ⟨⟨h1, h2, h3, h4, -⟩, ⟨h5, h6, h7, -⟩, ⟨h8, h9, -⟩, ⟨h10, -⟩, -⟩ := h
  cases r <;> simp [Config.registerAt, Config.addressOf, *, Ne.symm h1, Ne.symm h2, Ne.symm h3, Ne.symm h4,
    Ne.symm h5, Ne.symm h6, Ne.symm h7, Ne.symm h8, Ne.symm h9, Ne.symm h10]

/-- An address selects no register exactly when it is none of the five. -/
theorem Config.registerAt_eq_none (c : Config) (a : Word) : c.registerAt a = none ↔ a ∉ c.addresses := by
  unfold Config.registerAt Config.addresses
  constructor
  · intro h
    repeat' split at h
    all_goals simp_all
  · intro h
    simp only [List.mem_cons, not_or] at h
    simp [h]

/-- What the cursor check lets through (rule R104). -/
theorem checkedCursor_ok {r : Reg 32} {c : Word} :
    checkedCursor r = .ok c ↔ r = .value c ∧ cursorChan c = 0#17 ∧ (cursorWaddr c).toNat < 1024 := by
  cases r with
  | unwritten => simp [checkedCursor]
  | value v =>
    by_cases h1 : cursorChan v = 0#17
    · by_cases h2 : 1024 ≤ (cursorWaddr v).toNat
      · simp only [checkedCursor, h1, h2]
        simp only [ne_eq, not_true_eq_false, if_false, if_true, reduceCtorEq, false_iff, not_and, not_lt]
        rintro e -; cases e; exact h2
      · simp only [checkedCursor, h1, h2]
        simp only [ne_eq, not_true_eq_false, if_false, Except.ok.injEq, Reg.value.injEq]
        constructor
        · rintro rfl; exact ⟨rfl, h1, by omega⟩
        · rintro ⟨e, -⟩; exact e
    · simp only [checkedCursor, ne_eq, h1, not_false_eq_true, if_true, reduceCtorEq, false_iff, not_and]
      rintro e h; cases e; exact absurd h h1

/-- What the cursor check stops, and with which cause (rules R104, R212). -/
theorem checkedCursor_error {r : Reg 32} {cause : Cause} :
    checkedCursor r = .error cause ↔
      (r = .unwritten ∧ cause = .unwritten) ∨
      (∃ c, r = .value c ∧ cursorChan c ≠ 0#17 ∧ cause = .unsupportedChannel) ∨
      (∃ c, r = .value c ∧ cursorChan c = 0#17 ∧ 1024 ≤ (cursorWaddr c).toNat ∧ cause = .addressRange) := by
  cases r with
  | unwritten => simp [checkedCursor, eq_comm]
  | value v =>
    by_cases h1 : cursorChan v = 0#17
    · by_cases h2 : 1024 ≤ (cursorWaddr v).toNat <;> simp [checkedCursor, h1, h2, eq_comm]
    · simp only [checkedCursor, ne_eq, h1, not_false_eq_true, if_true, Except.error.injEq, reduceCtorEq,
        false_and, Reg.value.injEq, false_or, exists_eq_left', or_false]
      simp [eq_comm (a := cause)]

end Sys2Proof
end

