-- ==== Sys2Proof/Laws/Memory.lean ====
section
/-! SUPPORT. The word memories: a read after a write, and the canonical form. -/

namespace Sys2Proof.Machine

@[simp] theorem Memory.read_nil (a : Nat) : Memory.read [] a = .unwritten := rfl

@[simp] theorem Memory.read_cons (b : Nat) (v : Word) (m : Memory) (a : Nat) :
    Memory.read ((b, v) :: m) a = if a = b then .value v else Memory.read m a := rfl

/-- A word of the memory that no entry lists reads as `UNWRITTEN`. -/
theorem Memory.read_of_not_listed {m : Memory} {a : Nat} (h : ∀ cell ∈ m, cell.1 ≠ a) :
    Memory.read m a = .unwritten := by
  induction m with
  | nil => rfl
  | cons cell m ih =>
    obtain ⟨b, v⟩ := cell
    have hb : a ≠ b := fun e => h (b, v) (by simp) e.symm
    simpa [hb] using ih fun cell hc => h cell (by simp [hc])

theorem Memory.wf_iff (m : Memory) :
    Memory.wf m = true ↔ (m.map Prod.fst).Pairwise (· < ·) ∧ ∀ cell ∈ m, cell.1 < Config.memWords := by
  simp [Memory.wf]

theorem Memory.wf_nil : Memory.wf [] = true := rfl

/-- Reading the word written gives the value written, in any list. -/
theorem Memory.read_write_self (m : Memory) (a : Nat) (v : Word) :
    Memory.read (Memory.write m a v) a = .value v := by
  induction m with
  | nil => simp [Memory.write]
  | cons cell m ih =>
    obtain ⟨b, u⟩ := cell
    by_cases h1 : a < b
    · simp [Memory.write, h1]
    · by_cases h2 : a = b <;> simp [Memory.write, h1, h2, ih]

/-- Writing a word leaves every other word alone. -/
theorem Memory.read_write_other (m : Memory) {a a' : Nat} (v : Word) (h : a' ≠ a) :
    Memory.read (Memory.write m a v) a' = Memory.read m a' := by
  induction m with
  | nil => simp [Memory.write, h]
  | cons cell m ih =>
    obtain ⟨b, u⟩ := cell
    by_cases h1 : a < b
    · simp [Memory.write, h1, h]
    · by_cases h2 : a = b
      · subst h2; simp [Memory.write, h]
      · simp [Memory.write, h1, h2, ih]

/-- A read after a write, in one equation. -/
theorem Memory.read_write (m : Memory) (a a' : Nat) (v : Word) :
    Memory.read (Memory.write m a v) a' = if a' = a then .value v else Memory.read m a' := by
  split
  · next h => rw [h, Memory.read_write_self]
  · next h => exact Memory.read_write_other m v h

/-- The addresses of a memory after a write are the old ones and the one written. -/
theorem Memory.mem_write_address {m : Memory} {a : Nat} {v : Word} {b : Nat}
    (h : b ∈ (Memory.write m a v).map Prod.fst) : b = a ∨ b ∈ m.map Prod.fst := by
  induction m with
  | nil => simpa [Memory.write] using h
  | cons cell m ih =>
    obtain ⟨d, u⟩ := cell
    by_cases h1 : a < d
    · simpa [Memory.write, h1] using h
    · by_cases h2 : a = d
      · subst h2
        rcases List.mem_cons.1 (by simpa [Memory.write] using h : b ∈ a :: m.map Prod.fst) with h | h
        · exact .inl h
        · exact .inr (by simp only [List.map_cons, List.mem_cons]; exact .inr h)
      · rw [Memory.write, if_neg h1, if_neg h2, List.map_cons, List.mem_cons] at h
        rcases h with h | h
        · exact .inr (by simp [h])
        · exact (ih h).imp_right fun h => by simp only [List.map_cons, List.mem_cons]; exact .inr h

/-- A write below word 1024 keeps the canonical form. -/
theorem Memory.write_wf {m : Memory} {a : Nat} (v : Word) (ha : a < Config.memWords) (h : Memory.wf m = true) :
    Memory.wf (Memory.write m a v) = true := by
  rw [Memory.wf_iff] at h ⊢
  obtain ⟨hp, hb⟩ := h
  refine ⟨?_, fun cell hc => ?_⟩
  · clear hb
    induction m with
    | nil => simp [Memory.write]
    | cons cell m ih =>
      obtain ⟨d, u⟩ := cell
      rw [List.map_cons, List.pairwise_cons] at hp
      by_cases h1 : a < d
      · rw [Memory.write, if_pos h1, List.map_cons, List.pairwise_cons]
        refine ⟨fun b hmem => ?_, by rw [List.map_cons, List.pairwise_cons]; exact hp⟩
        rcases List.mem_cons.1 hmem with e | hmem
        · simpa [e] using h1
        · exact lt_trans h1 (hp.1 b hmem)
      · by_cases h2 : a = d
        · subst h2
          simpa [Memory.write] using List.pairwise_cons.2 hp
        · rw [Memory.write, if_neg h1, if_neg h2, List.map_cons, List.pairwise_cons]
          refine ⟨fun b hmem => ?_, ih hp.2⟩
          rcases Memory.mem_write_address hmem with e | hmem
          · simp only [e]; omega
          · exact hp.1 b hmem
  · rcases Memory.mem_write_address (List.mem_map_of_mem (f := Prod.fst) hc) with e | hmem
    · rw [e]; exact ha
    · obtain ⟨cell', hc', e⟩ := List.mem_map.1 hmem
      rw [← e]; exact hb cell' hc'

end Sys2Proof.Machine
end

