-- ==== Sys2Proof/Laws/State.lean ====
section
/-! SUPPORT. What each update of State does to each field, so that no proof unfolds a record update. -/

namespace Sys2Proof.Machine

variable (s : State)

@[simp] theorem State.setCursor_config (c : Word) : (s.setCursor c).config = s.config := rfl
@[simp] theorem State.setCursor_events (c : Word) : (s.setCursor c).events = s.events := rfl
@[simp] theorem State.setCursor_pc (c : Word) : (s.setCursor c).pc = s.pc := rfl
@[simp] theorem State.setCursor_cursor (c : Word) : (s.setCursor c).cursor = .value c := rfl
@[simp] theorem State.setCursor_sel (c : Word) : (s.setCursor c).sel = s.sel := rfl
@[simp] theorem State.setCursor_prof (c : Word) : (s.setCursor c).prof = s.prof := rfl
@[simp] theorem State.setCursor_win (c : Word) : (s.setCursor c).win = s.win := rfl
@[simp] theorem State.setCursor_fault (c : Word) : (s.setCursor c).fault = s.fault := rfl
@[simp] theorem State.setCursor_out (c : Word) : (s.setCursor c).out = s.out := rfl

@[simp] theorem State.setSel_config (sel : Selection) : (s.setSel sel).config = s.config := rfl
@[simp] theorem State.setSel_events (sel : Selection) : (s.setSel sel).events = s.events := rfl
@[simp] theorem State.setSel_pc (sel : Selection) : (s.setSel sel).pc = s.pc := rfl
@[simp] theorem State.setSel_cursor (sel : Selection) : (s.setSel sel).cursor = s.cursor := rfl
@[simp] theorem State.setSel_sel (sel : Selection) : (s.setSel sel).sel = sel := rfl
@[simp] theorem State.setSel_prof (sel : Selection) : (s.setSel sel).prof = s.prof := rfl
@[simp] theorem State.setSel_win (sel : Selection) : (s.setSel sel).win = s.win := rfl
@[simp] theorem State.setSel_fault (sel : Selection) : (s.setSel sel).fault = s.fault := rfl
@[simp] theorem State.setSel_out (sel : Selection) : (s.setSel sel).out = s.out := rfl

@[simp] theorem State.setProf_config (a : Nat) (v : Word) : (s.setProf a v).config = s.config := rfl
@[simp] theorem State.setProf_events (a : Nat) (v : Word) : (s.setProf a v).events = s.events := rfl
@[simp] theorem State.setProf_pc (a : Nat) (v : Word) : (s.setProf a v).pc = s.pc := rfl
@[simp] theorem State.setProf_cursor (a : Nat) (v : Word) : (s.setProf a v).cursor = s.cursor := rfl
@[simp] theorem State.setProf_sel (a : Nat) (v : Word) : (s.setProf a v).sel = s.sel := rfl
@[simp] theorem State.setProf_prof (a : Nat) (v : Word) : (s.setProf a v).prof = Memory.write s.prof a v := rfl
@[simp] theorem State.setProf_win (a : Nat) (v : Word) : (s.setProf a v).win = s.win := rfl
@[simp] theorem State.setProf_fault (a : Nat) (v : Word) : (s.setProf a v).fault = s.fault := rfl
@[simp] theorem State.setProf_out (a : Nat) (v : Word) : (s.setProf a v).out = s.out := rfl

@[simp] theorem State.setWin_config (a : Nat) (v : Word) : (s.setWin a v).config = s.config := rfl
@[simp] theorem State.setWin_events (a : Nat) (v : Word) : (s.setWin a v).events = s.events := rfl
@[simp] theorem State.setWin_pc (a : Nat) (v : Word) : (s.setWin a v).pc = s.pc := rfl
@[simp] theorem State.setWin_cursor (a : Nat) (v : Word) : (s.setWin a v).cursor = s.cursor := rfl
@[simp] theorem State.setWin_sel (a : Nat) (v : Word) : (s.setWin a v).sel = s.sel := rfl
@[simp] theorem State.setWin_prof (a : Nat) (v : Word) : (s.setWin a v).prof = s.prof := rfl
@[simp] theorem State.setWin_win (a : Nat) (v : Word) : (s.setWin a v).win = Memory.write s.win a v := rfl
@[simp] theorem State.setWin_fault (a : Nat) (v : Word) : (s.setWin a v).fault = s.fault := rfl
@[simp] theorem State.setWin_out (a : Nat) (v : Word) : (s.setWin a v).out = s.out := rfl

@[simp] theorem State.emit_config (p : Pulse) : (s.emit p).config = s.config := rfl
@[simp] theorem State.emit_events (p : Pulse) : (s.emit p).events = s.events := rfl
@[simp] theorem State.emit_pc (p : Pulse) : (s.emit p).pc = s.pc := rfl
@[simp] theorem State.emit_cursor (p : Pulse) : (s.emit p).cursor = s.cursor := rfl
@[simp] theorem State.emit_sel (p : Pulse) : (s.emit p).sel = s.sel := rfl
@[simp] theorem State.emit_prof (p : Pulse) : (s.emit p).prof = s.prof := rfl
@[simp] theorem State.emit_win (p : Pulse) : (s.emit p).win = s.win := rfl
@[simp] theorem State.emit_fault (p : Pulse) : (s.emit p).fault = s.fault := rfl
@[simp] theorem State.emit_out (p : Pulse) : (s.emit p).out = s.out ++ [p] := rfl

@[simp] theorem State.setFault_config (cause : Cause) (ev : Event) : (s.setFault cause ev).config = s.config := rfl
@[simp] theorem State.setFault_events (cause : Cause) (ev : Event) : (s.setFault cause ev).events = s.events := rfl
@[simp] theorem State.setFault_pc (cause : Cause) (ev : Event) : (s.setFault cause ev).pc = s.pc := rfl
@[simp] theorem State.setFault_cursor (cause : Cause) (ev : Event) : (s.setFault cause ev).cursor = s.cursor := rfl
@[simp] theorem State.setFault_sel (cause : Cause) (ev : Event) : (s.setFault cause ev).sel = s.sel := rfl
@[simp] theorem State.setFault_prof (cause : Cause) (ev : Event) : (s.setFault cause ev).prof = s.prof := rfl
@[simp] theorem State.setFault_win (cause : Cause) (ev : Event) : (s.setFault cause ev).win = s.win := rfl
@[simp] theorem State.setFault_fault (cause : Cause) (ev : Event) : (s.setFault cause ev).fault = some { cause := cause, time := ev.time, address := ev.address, data := ev.data } := rfl
@[simp] theorem State.setFault_out (cause : Cause) (ev : Event) : (s.setFault cause ev).out = s.out := rfl

@[simp] theorem State.advance_config : (s.advance).config = s.config := rfl
@[simp] theorem State.advance_events : (s.advance).events = s.events := rfl
@[simp] theorem State.advance_pc : (s.advance).pc = s.pc + 1 := rfl
@[simp] theorem State.advance_cursor : (s.advance).cursor = s.cursor := rfl
@[simp] theorem State.advance_sel : (s.advance).sel = s.sel := rfl
@[simp] theorem State.advance_prof : (s.advance).prof = s.prof := rfl
@[simp] theorem State.advance_win : (s.advance).win = s.win := rfl
@[simp] theorem State.advance_fault : (s.advance).fault = s.fault := rfl
@[simp] theorem State.advance_out : (s.advance).out = s.out := rfl

@[simp] theorem State.resetWith_config (c : Config) : (State.resetWith c).config = c := rfl
@[simp] theorem State.resetWith_events (c : Config) : (State.resetWith c).events = [] := rfl
@[simp] theorem State.resetWith_pc (c : Config) : (State.resetWith c).pc = 0 := rfl
@[simp] theorem State.resetWith_cursor (c : Config) : (State.resetWith c).cursor = .unwritten := rfl
@[simp] theorem State.resetWith_sel (c : Config) : (State.resetWith c).sel = Vector.replicate 16 .unwritten := rfl
@[simp] theorem State.resetWith_prof (c : Config) : (State.resetWith c).prof = [] := rfl
@[simp] theorem State.resetWith_win (c : Config) : (State.resetWith c).win = [] := rfl
@[simp] theorem State.resetWith_fault (c : Config) : (State.resetWith c).fault = none := rfl
@[simp] theorem State.resetWith_out (c : Config) : (State.resetWith c).out = [] := rfl

@[simp] theorem placeImage_config (w : Nat) : (placeImage s w).config = s.config := rfl
@[simp] theorem placeImage_events (w : Nat) : (placeImage s w).events = placeEvent s.events s.pc (Event.ofImage w) := rfl
@[simp] theorem placeImage_pc (w : Nat) : (placeImage s w).pc = s.pc := rfl
@[simp] theorem placeImage_cursor (w : Nat) : (placeImage s w).cursor = fetchCursor s.config s.cursor w := rfl
@[simp] theorem placeImage_sel (w : Nat) : (placeImage s w).sel = s.sel := rfl
@[simp] theorem placeImage_prof (w : Nat) : (placeImage s w).prof = s.prof := rfl
@[simp] theorem placeImage_win (w : Nat) : (placeImage s w).win = s.win := rfl
@[simp] theorem placeImage_fault (w : Nat) : (placeImage s w).fault = none := rfl
@[simp] theorem placeImage_out (w : Nat) : (placeImage s w).out = s.out := rfl

end Sys2Proof.Machine
end

