-- ==== Sys2Proof/Laws/Ops.lean ====
section
/-! SUPPORT. Once for each shared operation, everything it can answer; then the same of `exec` and `step`. -/

namespace Sys2Proof.Machine

@[simp] theorem readWritten_unwritten {w : Nat} : readWritten (w := w) .unwritten = .error .unwritten := rfl

@[simp] theorem readWritten_value {w : Nat} (v : BitVec w) : readWritten (.value v) = .ok v := rfl

theorem readWritten_ok {w : Nat} {r : Reg w} {v : BitVec w} : readWritten r = .ok v ↔ r = .value v := by
  cases r <;> simp

theorem readWritten_error {w : Nat} {r : Reg w} {e : Cause} : readWritten r = .error e ↔ r = .unwritten ∧ e = .unwritten := by
  cases r <;> simp [eq_comm]

/-- The next state of an event that completes. -/
theorem complete_eq {s t : State} : complete s = .next t ↔ t = s.advance := by
  simp [complete, eq_comm]

/-- The next state of an event that faults. -/
theorem takeFault_eq {cause : Cause} {ev : Event} {s t : State} :
    takeFault cause ev s = .next t ↔ t = s.setFault cause ev := by
  simp [takeFault, eq_comm]

/-- The table after a selection, oscillator by oscillator (rules R107 to R109). -/
theorem selectFrom_get (sel : Selection) (base : Nat) (qs : List (BitVec 5)) (o : Fin 16) :
    (selectFrom sel base qs)[o] =
      if h : base ≤ o.val ∧ o.val - base < qs.length then .value (qs[o.val - base]'h.2) else sel[o] := by
  induction qs generalizing sel base with
  | nil => simp [selectFrom]
  | cons q qs ih =>
    rw [selectFrom, ih]
    rcases Nat.lt_trichotomy o.val base with h | h | h
    · have h1 : ¬ base + 1 ≤ o.val := by omega
      have h2 : ¬ base ≤ o.val := by omega
      have h3 : base ≠ o.val := by omega
      simp [h1, h2, Fin.getElem_fin, h3]
    · simp [← h, Fin.getElem_fin]
    · obtain ⟨d, hd⟩ : ∃ d, o.val - base = d + 1 := ⟨o.val - base - 1, by omega⟩
      have h1 : base + 1 ≤ o.val := h
      have h2 : base ≤ o.val := by omega
      have h3 : o.val - (base + 1) = d := by omega
      have h4 : base ≠ o.val := by omega
      simp [h1, h2, h3, h4, hd, Fin.getElem_fin]

/-- Everything a data write can do: fault with the cursor's cause, or store at the cursor's word and move on. -/
theorem dataWrite_next {store : State → Nat → State} {ev : Event} {s t : State} :
    dataWrite store ev s = .next t ↔
      (∃ cause, checkedCursor s.cursor = .error cause ∧ t = s.setFault cause ev) ∨
      (∃ cur, checkedCursor s.cursor = .ok cur ∧
        t = ((store s (cursorWaddr cur).toNat).setCursor (cur + 1#32)).advance) := by
  unfold dataWrite
  cases h : checkedCursor s.cursor <;> simp [takeFault_eq, complete_eq]

/-- Everything a selection write can do. -/
theorem selectWrite_next {base : Nat} {fields : List (BitVec 5)} {rsvd : BitVec 2} {ev : Event} {s t : State} :
    selectWrite base fields rsvd ev s = .next t ↔
      (rsvd ≠ 0#2 ∧ t = s.setFault .reservedBits ev) ∨
      (rsvd = 0#2 ∧ t = (s.setSel (selectFrom s.sel base fields)).advance) := by
  unfold selectWrite
  by_cases h : rsvd = 0#2 <;> simp [h, takeFault_eq, complete_eq]

/-- Everything a `WR_CFG0` can do. -/
theorem execWrCfg0_next {time : Time} {start : BitVec 10} {q0 q1 q2 q3 : BitVec 5} {rsvd : BitVec 2} {s t : State} :
    execWrCfg0 time start q0 q1 q2 q3 rsvd s = .next t ↔
      (rsvd ≠ 0#2 ∧ t = s.setFault .reservedBits (encode s.config (.wrCfg0 time start q0 q1 q2 q3 rsvd))) ∨
      (rsvd = 0#2 ∧ ∃ cause,
        synthesise s.config (selectFrom s.sel 0 [q0, q1, q2, q3]) s.prof s.win start time = .error cause ∧
        t = s.setFault cause (encode s.config (.wrCfg0 time start q0 q1 q2 q3 rsvd))) ∨
      (rsvd = 0#2 ∧ ∃ pulse,
        synthesise s.config (selectFrom s.sel 0 [q0, q1, q2, q3]) s.prof s.win start time = .ok pulse ∧
        t = ((s.setSel (selectFrom s.sel 0 [q0, q1, q2, q3])).emit pulse).advance) := by
  unfold execWrCfg0
  by_cases h : rsvd = 0#2
  · subst h
    cases h : synthesise s.config (selectFrom s.sel 0 [q0, q1, q2, q3]) s.prof s.win start time <;>
      simp [h, takeFault_eq, complete_eq]
  · simp [h, takeFault_eq]

/-- The stages of a synthesis that completes (rule R187). -/
theorem synthesise_ok {c : Config} {sel : Selection} {prof win : Memory} {start : BitVec 10}
    {time : Time} {pulse : Pulse} :
    synthesise c sel prof win start time = .ok pulse ↔
      ∃ env st oscs, reconstruct win start = .ok env ∧ sampleTime c time = .ok st ∧
        lookupAll sel prof oscillators = .ok oscs ∧
        pulse = { sampleTime := st, waveform := waveform st.toInt oscs env } := by
  unfold synthesise
  cases h1 : reconstruct win start <;> cases h2 : sampleTime c time <;>
    cases h3 : lookupAll sel prof oscillators <;> simp [bind, Except.bind, pure, Except.pure, eq_comm]

/-- The first stage of a synthesis that faults (rule R212). -/
theorem synthesise_error {c : Config} {sel : Selection} {prof win : Memory} {start : BitVec 10}
    {time : Time} {cause : Cause} :
    synthesise c sel prof win start time = .error cause ↔
      reconstruct win start = .error cause ∨
      (∃ env, reconstruct win start = .ok env ∧ sampleTime c time = .error cause) ∨
      (∃ env st, reconstruct win start = .ok env ∧ sampleTime c time = .ok st ∧
        lookupAll sel prof oscillators = .error cause) := by
  unfold synthesise
  cases h1 : reconstruct win start <;> cases h2 : sampleTime c time <;>
    cases h3 : lookupAll sel prof oscillators <;> simp [bind, Except.bind, pure, Except.pure]

/-- Every operation answers a next state: a fault is taken, never a stop. -/
theorem exec_answers_next (i : Instr) (s : State) : ∃ t, exec i s = .next t := by
  cases i with
  | wrMemAddr t chan msel waddr => exact ⟨_, rfl⟩
  | wrMemDataProf t data =>
    simp only [exec, execWrMemDataProf, dataWrite]; split <;> exact ⟨_, rfl⟩
  | wrMemDataWin t data =>
    simp only [exec, execWrMemDataWin, dataWrite]; split <;> exact ⟨_, rfl⟩
  | wrCfg0 t start q0 q1 q2 q3 rsvd =>
    simp only [exec, execWrCfg0]; split
    · exact ⟨_, rfl⟩
    · split <;> exact ⟨_, rfl⟩
  | wrCfg1 t q4 q5 q6 q7 q8 q9 rsvd =>
    simp only [exec, execWrCfg1, selectWrite]; split <;> exact ⟨_, rfl⟩
  | wrCfg2 t q10 q11 q12 q13 q14 q15 rsvd =>
    simp only [exec, execWrCfg2, selectWrite]; split <;> exact ⟨_, rfl⟩

/-- What an operation that does not fault does to the state, short of advancing `pc`. -/
inductive Effect (s : State) : Instr → State → Prop where
  | memAddr (t chan msel waddr) : Effect s (.wrMemAddr t chan msel waddr) (s.setCursor (curWord chan msel waddr))
  | memDataProf (t data cur) (h : checkedCursor s.cursor = .ok cur) :
      Effect s (.wrMemDataProf t data) ((s.setProf (cursorWaddr cur).toNat data).setCursor (cur + 1#32))
  | memDataWin (t data cur) (h : checkedCursor s.cursor = .ok cur) :
      Effect s (.wrMemDataWin t data) ((s.setWin (cursorWaddr cur).toNat data).setCursor (cur + 1#32))
  | cfg0 (t start q0 q1 q2 q3 pulse)
      (h : synthesise s.config (selectFrom s.sel 0 [q0, q1, q2, q3]) s.prof s.win start t = .ok pulse) :
      Effect s (.wrCfg0 t start q0 q1 q2 q3 0#2) ((s.setSel (selectFrom s.sel 0 [q0, q1, q2, q3])).emit pulse)
  | cfg1 (t q4 q5 q6 q7 q8 q9) :
      Effect s (.wrCfg1 t q4 q5 q6 q7 q8 q9 0#2) (s.setSel (selectFrom s.sel 4 [q4, q5, q6, q7, q8, q9]))
  | cfg2 (t q10 q11 q12 q13 q14 q15) :
      Effect s (.wrCfg2 t q10 q11 q12 q13 q14 q15 0#2) (s.setSel (selectFrom s.sel 10 [q10, q11, q12, q13, q14, q15]))

/-- Everything `exec` can do: take a fault for the operation's own event, or have the operation's effect and advance. -/
theorem exec_cases {i : Instr} {s t : State} (h : exec i s = .next t) :
    (∃ cause, t = s.setFault cause (encode s.config i)) ∨ (∃ u, Effect s i u ∧ t = u.advance) := by
  cases i with
  | wrMemAddr time chan msel waddr => exact .inr ⟨_, .memAddr time chan msel waddr, complete_eq.1 h⟩
  | wrMemDataProf time data =>
    simp only [exec, execWrMemDataProf] at h
    rcases dataWrite_next.1 h with ⟨cause, -, e⟩ | ⟨cur, hc, e⟩
    · exact .inl ⟨cause, e⟩
    · exact .inr ⟨_, .memDataProf time data cur hc, e⟩
  | wrMemDataWin time data =>
    simp only [exec, execWrMemDataWin] at h
    rcases dataWrite_next.1 h with ⟨cause, -, e⟩ | ⟨cur, hc, e⟩
    · exact .inl ⟨cause, e⟩
    · exact .inr ⟨_, .memDataWin time data cur hc, e⟩
  | wrCfg0 time start q0 q1 q2 q3 rsvd =>
    rcases execWrCfg0_next.1 h with ⟨-, e⟩ | ⟨-, cause, -, e⟩ | ⟨hr, pulse, hp, e⟩
    · exact .inl ⟨_, e⟩
    · exact .inl ⟨cause, e⟩
    · subst hr; exact .inr ⟨_, .cfg0 time start q0 q1 q2 q3 pulse hp, e⟩
  | wrCfg1 time q4 q5 q6 q7 q8 q9 rsvd =>
    rcases selectWrite_next.1 h with ⟨-, e⟩ | ⟨hr, e⟩
    · exact .inl ⟨_, e⟩
    · subst hr; exact .inr ⟨_, .cfg1 time q4 q5 q6 q7 q8 q9, e⟩
  | wrCfg2 time q10 q11 q12 q13 q14 q15 rsvd =>
    rcases selectWrite_next.1 h with ⟨-, e⟩ | ⟨hr, e⟩
    · exact .inl ⟨_, e⟩
    · subst hr; exact .inr ⟨_, .cfg2 time q10 q11 q12 q13 q14 q15, e⟩

/-- Everything `step` can do when it answers a next state: no event is left and nothing changes; the next event is no
operation and faults; or it is an operation and `exec` runs it. -/
theorem step_cases {s t : State} (h : step s = .next t) :
    s.config.wf = true ∧ s.fault = none ∧
      ((nextEvent s = none ∧ t = s) ∨
       (∃ ev cause, nextEvent s = some ev ∧ decode s.config s.cursor ev = .error cause ∧ t = s.setFault cause ev) ∨
       (∃ ev i, nextEvent s = some ev ∧ decode s.config s.cursor ev = .ok i ∧ exec i s = .next t)) := by
  unfold step at h
  split at h
  · next hw =>
    refine ⟨hw, ?_⟩
    split at h
    · cases h
    · next hf =>
      refine ⟨hf, ?_⟩
      split at h
      · next he => cases h; exact .inl ⟨he, rfl⟩
      · next ev he =>
        split at h
        · next cause hd => exact .inr (.inl ⟨ev, cause, he, hd, takeFault_eq.1 h⟩)
        · next i hd => exact .inr (.inr ⟨ev, i, he, hd, h⟩)
  · cases h

end Sys2Proof.Machine
end

