-- ==== Sys2Proof/Laws/Datapath.lean ====
section
/-! SUPPORT. Once for each operation of the datapath, everything it can answer; first, the number of an exact sum. -/

namespace Sys2Proof.Machine

section Value
variable {K : Type} [Field K] (cis : BitVec 32 → Cx K)

@[simp] theorem CisSum.value_nil : CisSum.value cis [] = ⟨0, 0⟩ := rfl

@[simp] theorem CisSum.value_cons (t : CisTerm) (p : CisSum) :
    CisSum.value cis (t :: p) = cxAdd (CisTerm.value cis t) (CisSum.value cis p) := rfl

/-- Concatenation of exact sums is addition (rule R166). -/
@[simp] theorem CisSum.value_append (p q : CisSum) :
    CisSum.value cis (p ++ q) = cxAdd (CisSum.value cis p) (CisSum.value cis q) := by
  induction p with
  | nil => simp [cxAdd]
  | cons t p ih => simp [ih, cxAdd, add_assoc]

/-- Scaling term by term is multiplication by the complex rational (rules R184, R185). -/
@[simp] theorem CisSum.value_scaleBy [CharZero K] (z : Cx ℚ) (p : CisSum) :
    CisSum.value cis (CisSum.scaleBy z p) = cxMul (CisSum.value cis p) (cxMap (Rat.cast : ℚ → K) z) := by
  induction p with
  | nil => simp [CisSum.scaleBy, cxMul]
  | cons t p ih =>
    have h : CisSum.scaleBy z (t :: p) = { t with weight := cxMul t.weight z } :: CisSum.scaleBy z p := rfl
    rw [h, CisSum.value_cons, ih, CisSum.value_cons]
    simp only [CisTerm.value, cxMul, cxMap, cxAdd, Cx.mk.injEq]
    push_cast
    constructor <;> ring

end Value

/-- A header that passes the checks (rules R132, R133, R206). -/
theorem checkHeader_ok {start : Nat} {h : Header} {u : Unit} :
    checkHeader start h = .ok u ↔ h.head = 1#1 ∧ h.tail = 1#1 ∧ h.rsvd = 0#2 ∧ start + h.length ≤ 1023 := by
  unfold checkHeader
  split
  · next hs => simp only [reduceCtorEq, false_iff]; tauto
  · next hs =>
    split
    · next hr => simp only [reduceCtorEq, false_iff]; tauto
    · next hr =>
      split
      · next hl => simp only [reduceCtorEq, false_iff]; omega
      · next hl =>
        simp only [ne_eq, not_or, not_not, not_lt] at hs hr hl
        simp [hs, hr, hl]

/-- A header that fails a check, and the cause (rule R212). -/
theorem checkHeader_error {start : Nat} {h : Header} {e : Cause} :
    checkHeader start h = .error e ↔
      (¬(h.head = 1#1 ∧ h.tail = 1#1) ∧ e = .unsupportedWindowSegment) ∨
      (h.head = 1#1 ∧ h.tail = 1#1 ∧ h.rsvd ≠ 0#2 ∧ e = .reservedBits) ∨
      (h.head = 1#1 ∧ h.tail = 1#1 ∧ h.rsvd = 0#2 ∧ 1023 < start + h.length ∧ e = .addressRange) := by
  unfold checkHeader
  split
  · next hs => simp only [Except.error.injEq, eq_comm (a := Cause.unsupportedWindowSegment)]; tauto
  · next hs =>
    simp only [ne_eq, not_or, not_not] at hs
    split
    · next hr => simp [hs, hr, eq_comm (a := e)]
    · next hr =>
      simp only [ne_eq, not_not] at hr
      split <;> simp_all [eq_comm (a := e)]

/-- Reading samples succeeds exactly on written words, and gives them in order (rule R133). -/
theorem readSamples_ok {win : Memory} {base n : Nat} {x : List (Cx ℤ)} :
    readSamples win base n = .ok x ↔
      x.length = n ∧ ∀ k, (h : k < x.length) → ∃ w, Memory.read win (base + k) = .value w ∧ x[k] = sampleOf w := by
  induction n generalizing base x with
  | zero =>
    simp only [readSamples, Except.ok.injEq]
    constructor
    · rintro rfl; simp
    · rintro ⟨h, -⟩; exact (List.eq_nil_of_length_eq_zero h).symm
  | succ n ih =>
    simp only [readSamples, bind, Except.bind]
    cases hr : Memory.read win base with
    | unwritten =>
      simp only [readWritten_unwritten, reduceCtorEq, false_iff, not_and, not_forall]
      intro hl
      refine ⟨0, by omega, ?_⟩
      simp [hr]
    | value w =>
      simp only [readWritten_value]
      cases hrest : readSamples win (base + 1) n with
      | error e =>
        simp only [reduceCtorEq, false_iff, not_and]
        intro hl hall
        cases x with
        | nil => simp at hl
        | cons z zs =>
          have : readSamples win (base + 1) n = .ok zs := ih.2 ⟨by simpa using hl, fun k hk => by
            have := hall (k + 1) (by simpa using hk)
            simpa [Nat.add_assoc, Nat.add_comm 1 k] using this⟩
          rw [hrest] at this; cases this
      | ok rest =>
        obtain ⟨hl, hall⟩ := ih.1 hrest
        simp only [pure, Except.pure, Except.ok.injEq]
        constructor
        · rintro rfl
          refine ⟨by simp [hl], fun k hk => ?_⟩
          cases k with
          | zero => exact ⟨w, by simpa using hr, rfl⟩
          | succ k => simpa [Nat.add_assoc, Nat.add_comm 1 k] using hall k (by simpa using hk)
        · rintro ⟨hxl, hxall⟩
          cases x with
          | nil => simp at hxl
          | cons z zs =>
            have h0 := hxall 0 (by simp)
            obtain ⟨w', hw', hz⟩ := h0
            simp only [Nat.add_zero, hr, Reg.value.injEq] at hw'
            subst hw'
            have : readSamples win (base + 1) n = .ok zs := ih.2 ⟨by simpa using hxl, fun k hk => by
              have := hxall (k + 1) (by simpa using hk)
              simpa [Nat.add_assoc, Nat.add_comm 1 k] using this⟩
            rw [hrest] at this
            simp only [Except.ok.injEq] at this
            rw [this]; simp only [List.getElem_cons_zero] at hz; rw [hz]

/-- Reading samples faults exactly when one is unwritten (rules R133, R207). -/
theorem readSamples_error {win : Memory} {base n : Nat} {e : Cause} :
    readSamples win base n = .error e ↔ e = .unwritten ∧ ∃ k, k < n ∧ Memory.read win (base + k) = .unwritten := by
  induction n generalizing base with
  | zero => simp [readSamples]
  | succ n ih =>
    simp only [readSamples, bind, Except.bind]
    cases hr : Memory.read win base with
    | unwritten =>
      simp only [readWritten_unwritten, Except.error.injEq]
      constructor
      · rintro rfl; exact ⟨rfl, 0, by omega, by simpa using hr⟩
      · rintro ⟨rfl, -⟩; rfl
    | value w =>
      simp only [readWritten_value]
      have key : (∃ k, k < n + 1 ∧ Memory.read win (base + k) = .unwritten) ↔
          ∃ k, k < n ∧ Memory.read win (base + 1 + k) = .unwritten := by
        constructor
        · rintro ⟨k, hk, hu⟩
          cases k with
          | zero => simp [hr] at hu
          | succ k => exact ⟨k, by omega, by rwa [Nat.add_assoc, Nat.add_comm 1 k]⟩
        · rintro ⟨k, hk, hu⟩
          exact ⟨k + 1, by omega, by rwa [Nat.add_assoc, Nat.add_comm 1 k] at hu⟩
      rw [key, ← ih]
      cases readSamples win (base + 1) n <;> simp [pure, Except.pure]

/-- The stages of a reconstruction that completes (rule R130). -/
theorem reconstruct_ok {win : Memory} {start : BitVec 10} {env : List (Cx ℚ)} :
    reconstruct win start = .ok env ↔
      ∃ word x, Memory.read win start.toNat = .value word ∧ checkHeader start.toNat (headerOf word) = .ok () ∧
        readSamples win (start.toNat + 1) (headerOf word).length = .ok x ∧
        (cascade (headerOf word).rate (headerOf word).order (hold x (headerOf word).rate)).length =
          requiredLength (headerOf word) ∧
        env = (cascade (headerOf word).rate (headerOf word).order (hold x (headerOf word).rate)).map
          (normalise (headerOf word).shift) := by
  simp only [reconstruct, bind, Except.bind]
  cases hr : Memory.read win start.toNat with
  | unwritten => simp
  | value word =>
    simp only [readWritten_value, Reg.value.injEq]
    cases hc : checkHeader start.toNat (headerOf word) with
    | error e => simp [hc]
    | ok u =>
      cases hs : readSamples win (start.toNat + 1) (headerOf word).length with
      | error e => simp [hs]
      | ok x =>
        by_cases hl : (cascade (headerOf word).rate (headerOf word).order (hold x (headerOf word).rate)).length =
          requiredLength (headerOf word)
        · simp [hl, hs, hc, pure, Except.pure, eq_comm]
        · simp [hl, hs]

/-- The entry an oscillator has selected, or the fault of looking it up (rules R160, R161, R207). -/
theorem lookup_cases (sel : Selection) (prof : Memory) (o : Fin 16) :
    (sel[o] = .unwritten ∧ lookup sel prof o = .error .unwritten) ∨
    ∃ q, sel[o] = .value q ∧
      ((Memory.read prof (ampphAddr o q) = .unwritten ∧ lookup sel prof o = .error .unwritten) ∨
       ∃ wa, Memory.read prof (ampphAddr o q) = .value wa ∧
        ((ampOf wa = 0#16 ∧ lookup sel prof o = .ok none) ∨
         (ampOf wa ≠ 0#16 ∧ Memory.read prof (freqAddr o q) = .unwritten ∧ lookup sel prof o = .error .unwritten) ∨
         (ampOf wa ≠ 0#16 ∧ ∃ wf, Memory.read prof (freqAddr o q) = .value wf ∧
          lookup sel prof o = .ok (some { freq := wf, amplitude := ampOf wa, phaseOffset := phaseOffsetOf wa })))) := by
  simp only [lookup, bind, Except.bind]
  cases hq : sel[o] with
  | unwritten => simp
  | value q =>
    refine .inr ⟨q, rfl, ?_⟩
    simp only [readWritten_value]
    cases ha : Memory.read prof (ampphAddr o q) with
    | unwritten => simp
    | value wa =>
      refine .inr ⟨wa, rfl, ?_⟩
      simp only [readWritten_value]
      by_cases h0 : ampOf wa = 0#16
      · exact .inl ⟨h0, by simp [h0, pure, Except.pure]⟩
      · refine .inr ?_
        cases hf : Memory.read prof (freqAddr o q) with
        | unwritten => exact .inl ⟨h0, rfl, by simp [h0]⟩
        | value wf => exact .inr ⟨h0, wf, rfl, by simp [h0, pure, Except.pure]⟩

/-- All lookups succeed exactly when each does, and the active entries come in order (rule R160). -/
theorem lookupAll_ok {sel : Selection} {prof : Memory} {os : List (Fin 16)} {oscs : List Osc} :
    lookupAll sel prof os = .ok oscs ↔
      ∃ entries : List (Option Osc), os.map (lookup sel prof) = entries.map .ok ∧
        oscs = entries.flatMap Option.toList := by
  induction os generalizing oscs with
  | nil => simp [lookupAll, eq_comm]
  | cons o os ih =>
    simp only [lookupAll, bind, Except.bind, List.map_cons]
    cases hl : lookup sel prof o with
    | error e =>
      simp only [reduceCtorEq, false_iff, not_exists, not_and]
      intro entries he
      cases entries <;> simp at he
    | ok entry =>
      cases hr : lookupAll sel prof os with
      | error e =>
        simp only [reduceCtorEq, false_iff, not_exists, not_and]
        intro entries he _
        cases entries with
        | nil => simp at he
        | cons e' es =>
          simp only [List.map_cons, List.cons.injEq] at he
          have := ih.2 ⟨es, he.2, rfl⟩
          rw [hr] at this; cases this
      | ok rest =>
        obtain ⟨entries, he, hrest⟩ := ih.1 hr
        simp only [pure, Except.pure, Except.ok.injEq]
        constructor
        · rintro rfl
          exact ⟨entry :: entries, by simp [he], by simp [hrest]⟩
        · rintro ⟨entries', he', rfl⟩
          cases entries' with
          | nil => simp at he'
          | cons e' es =>
            simp only [List.map_cons, List.cons.injEq, Except.ok.injEq] at he'
            have h2 := ih.2 ⟨es, he'.2, rfl⟩
            rw [hr] at h2
            simp only [Except.ok.injEq] at h2
            rw [he'.1, h2]; simp

/-- The only fault of the lookups is `Unwritten` (rule R160). -/
theorem lookupAll_error {sel : Selection} {prof : Memory} {os : List (Fin 16)} {e : Cause}
    (h : lookupAll sel prof os = .error e) : e = .unwritten := by
  induction os with
  | nil => simp [lookupAll] at h
  | cons o os ih =>
    simp only [lookupAll, bind, Except.bind] at h
    cases hl : lookup sel prof o with
    | error e' =>
      rw [hl] at h
      simp only [Except.error.injEq] at h
      subst h
      rcases lookup_cases sel prof o with ⟨-, h⟩ | ⟨q, -, ⟨-, h⟩ | ⟨wa, -, ⟨-, h⟩ | ⟨-, -, h⟩ | ⟨-, wf, -, h⟩⟩⟩ <;>
        rw [hl] at h <;> simp_all
    | ok entry =>
      rw [hl] at h
      cases hr : lookupAll sel prof os with
      | error e' => rw [hr] at h; simp only [Except.error.injEq] at h; subst h; exact ih hr
      | ok rest => rw [hr] at h; simp [pure, Except.pure] at h

end Sys2Proof.Machine
end

