-- ==== Sys2Proof/Laws/PerInstr.lean ====
section
/-! SUPPORT. One lemma per operation: its event goes to its own register, at its own time, and is recognised there. -/

namespace Sys2Proof

/-- The event of an operation is a write of its data word to its register's address at its time, and that address
selects that register (rules R60, R61). -/
def Laws.OwnRegister.Statement (i : Instr) : Prop :=
  ∀ c : Config, c.wf = true →
    c.registerAt (encode c i).address = some i.register ∧ (encode c i).time = i.time ∧ (encode c i).data = i.data

theorem Laws.OwnRegister.wrMemAddr (t chan msel waddr) :
    Laws.OwnRegister.Statement (.wrMemAddr t chan msel waddr) :=
  fun _ h => ⟨Config.registerAt_addressOf h .memAddr, rfl, rfl⟩

theorem Laws.OwnRegister.wrMemDataProf (t data) : Laws.OwnRegister.Statement (.wrMemDataProf t data) :=
  fun _ h => ⟨Config.registerAt_addressOf h .memData, rfl, rfl⟩

theorem Laws.OwnRegister.wrMemDataWin (t data) : Laws.OwnRegister.Statement (.wrMemDataWin t data) :=
  fun _ h => ⟨Config.registerAt_addressOf h .memData, rfl, rfl⟩

theorem Laws.OwnRegister.wrCfg0 (t start q0 q1 q2 q3 rsvd) :
    Laws.OwnRegister.Statement (.wrCfg0 t start q0 q1 q2 q3 rsvd) :=
  fun _ h => ⟨Config.registerAt_addressOf h .cfg0, rfl, rfl⟩

theorem Laws.OwnRegister.wrCfg1 (t q4 q5 q6 q7 q8 q9 rsvd) :
    Laws.OwnRegister.Statement (.wrCfg1 t q4 q5 q6 q7 q8 q9 rsvd) :=
  fun _ h => ⟨Config.registerAt_addressOf h .cfg1, rfl, rfl⟩

theorem Laws.OwnRegister.wrCfg2 (t q10 q11 q12 q13 q14 q15 rsvd) :
    Laws.OwnRegister.Statement (.wrCfg2 t q10 q11 q12 q13 q14 q15 rsvd) :=
  fun _ h => ⟨Config.registerAt_addressOf h .cfg2, rfl, rfl⟩

end Sys2Proof
end

