-- ==== Sys2Proof/Laws/Run.lean ====
section
/-! SUPPORT. Steps and runs: the step on the next event, and a run one step at a time. -/

namespace Sys2Proof.Machine

/-- The step on a next event that is an operation. -/
theorem step_of_decoded {s : State} {ev : Event} {i : Instr} (hw : s.config.wf = true) (hf : s.fault = none)
    (he : nextEvent s = some ev) (hd : decode s.config s.cursor ev = .ok i) : step s = exec i s := by
  simp [step, hw, hf, he, hd]

/-- The step on a next event that is no operation. -/
theorem step_of_rejected {s : State} {ev : Event} {cause : Cause} (hw : s.config.wf = true) (hf : s.fault = none)
    (he : nextEvent s = some ev) (hd : decode s.config s.cursor ev = .error cause) :
    step s = .next (s.setFault cause ev) := by
  simp [step, hw, hf, he, hd, takeFault]

/-- The step where no event is left. -/
theorem step_of_no_event {s : State} (hw : s.config.wf = true) (hf : s.fault = none) (he : nextEvent s = none) :
    step s = .next s := by
  simp [step, hw, hf, he]

/-- The step after a fault. -/
theorem step_of_fault {s : State} {r : FaultRecord} (hw : s.config.wf = true) (hf : s.fault = some r) :
    step s = .fault (.stopped r) := by
  simp [step, hw, hf]

@[simp] theorem run_zero (s : State) : Sys2Proof.core.run 0 s = .next s := rfl

/-- A run whose first step answers a next state goes on from there. -/
theorem run_succ_of_next {n : Nat} {s t : State} (h : step s = .next t) :
    Sys2Proof.core.run (n + 1) s = Sys2Proof.core.run n t := by
  have h' : Sys2Proof.core.step s = .next t := h
  simp only [Host.Core.run, h']

/-- A run whose first step is stopped is stopped. -/
theorem run_succ_of_fault {n : Nat} {s : State} {r : Fault} (h : step s = .fault r) :
    Sys2Proof.core.run (n + 1) s = .fault r := by
  have h' : Sys2Proof.core.step s = .fault r := h
  simp only [Host.Core.run, h']

/-- A run whose first step is refused is refused. -/
theorem run_succ_of_refused {n : Nat} {s : State} {r : Refusal} (h : step s = .refused r) :
    Sys2Proof.core.run (n + 1) s = .refused r := by
  have h' : Sys2Proof.core.step s = .refused r := h
  simp only [Host.Core.run, h']

@[simp] theorem start_config (c : Config) (events : List Event) : (start c events).config = c := rfl
@[simp] theorem start_events (c : Config) (events : List Event) : (start c events).events = replayOrder events := rfl
@[simp] theorem start_pc (c : Config) (events : List Event) : (start c events).pc = 0 := rfl
@[simp] theorem start_cursor (c : Config) (events : List Event) : (start c events).cursor = .unwritten := rfl
@[simp] theorem start_prof (c : Config) (events : List Event) : (start c events).prof = [] := rfl
@[simp] theorem start_win (c : Config) (events : List Event) : (start c events).win = [] := rfl
@[simp] theorem start_fault (c : Config) (events : List Event) : (start c events).fault = none := rfl
@[simp] theorem start_out (c : Config) (events : List Event) : (start c events).out = [] := rfl

end Sys2Proof.Machine
end

