-- ==== Sys2Proof/Tests/Slice0.lean ====
section
/-! SUPPORT. The writer's own tests: the ill-formed terms the checks refuse, words written out from the formats, a few single
steps, and for each obligation with hypotheses a state and operands that meet them. -/

namespace Sys2Proof.Tests

open Sys2Proof.Machine

/-! Helpers: small states -/

/-- A write to register `r` at time `t`. -/
def wr (r : Register) (t : Int) (data : Word) : Event := writeLine Config.atReset r (BitVec.ofInt 64 t) data

/-- Reset with a cursor and the events to come. -/
def at' (cursor : Reg 32) (events : List Event) : State := { State.reset with cursor := cursor, events := events }

/-- Oscillators 1 to 15 inactive on profile 0: their amplitude/phase words, from oscillator 1 (rule R23). -/
def idleWords : Memory := (List.range 15).map fun k => (64 * k + 65, 0#32)

/-- Every oscillator on profile 0, with oscillator 0 on `f = 2^30`, `a = 0x8000`, `p = 0`, and the window of rule R187's
example at word 0. -/
def ready : State :=
  { State.reset with
    sel := Vector.replicate 16 (.value 0#5)
    prof := (0, 0x40000000#32) :: (1, 0x00008000#32) :: idleWords
    win := [(0, 0xC0000002#32), (1, 0x00004000#32), (2, 0x00004000#32)] }

/-- The same with an empty window at word 0 (rule R139). -/
def readyEmpty : State := { ready with win := [(0, 0xC0000000#32)] }

/-- A trigger on window 0 with profiles 0. -/
def trig (t : Time) : Instr := .wrCfg0 t 0#10 0#5 0#5 0#5 0#5 0#2

/-- What the trigger of `readyEmpty` at time 7 leaves: one result with no sample (rule R139). -/
def fired : State := { readyEmpty with out := [⟨7#64, []⟩], pc := 1 }

/-- A `CIS` exact at the quarter turns, and the identity quantiser (rules R165, R185). -/
def quarterNumerics : Numerics ℚ where
  cis th :=
    if th = 0x40000000#32 then ⟨0, 1⟩ else if th = 0x80000000#32 then ⟨-1, 0⟩
    else if th = 0xC0000000#32 then ⟨0, -1⟩ else ⟨1, 0⟩
  quantOut z := z

/-- Two outcomes are equal, as a Bool. -/
def agrees : Host.Outcome State Fault Refusal → Host.Outcome State Fault Refusal → Bool
  | .next s, .next t => decide (s = t)
  | .fault f, .fault g => decide (f = g)
  | .refused r, .refused q => decide (r = q)
  | _, _ => false

theorem eq_of_agrees {a b : Host.Outcome State Fault Refusal} (h : agrees a b = true) : a = b := by
  cases a <;> cases b <;> simp_all [agrees]

/-! The checks refuse ill-formed terms -/

theorem test_wf_reset : Config.atReset.wf = true := by decide
theorem test_wf_equal_addresses : { Config.atReset with addrCfg2 := 0x04#32 }.wf = false := by decide
theorem test_wf_zero_ratio : { Config.atReset with clockRatio := 0 }.wf = false := by decide
theorem test_wf_negative_ratio : { Config.atReset with clockRatio := -1 }.wf = false := by decide
theorem test_wf_cfg0_reserved : (Instr.wrCfg0 0#64 0#10 0#5 0#5 0#5 0#5 1#2).wf = false := by decide
theorem test_wf_cfg1_reserved : (Instr.wrCfg1 0#64 0#5 0#5 0#5 0#5 0#5 0#5 2#2).wf = false := by decide
theorem test_wf_cfg2_reserved : (Instr.wrCfg2 0#64 0#5 0#5 0#5 0#5 0#5 0#5 3#2).wf = false := by decide
theorem test_wf_memory_order : Memory.wf [(5, 1#32), (3, 1#32)] = false := by decide
theorem test_wf_memory_range : Memory.wf [(1024, 1#32)] = false := by decide
theorem test_wf_memory_repeat : Memory.wf [(5, 1#32), (5, 2#32)] = false := by decide

/-! Words from the formats decode. Each word is written bit by bit in the order of its rule's table, high bits first. -/

/-- R62: channel 0, memory select 1, word `{0000, o = 0001, q = 00011, w = 0}` (the example of rule R103). -/
theorem test_decode_mem_addr :
    decode Config.atReset .unwritten (wr .memAddr 5 0b00000000000000000100000001000110#32) =
      .ok (.wrMemAddr 5#64 0#17 1#1 0x046#14) := by decide

/-- R76: the same data write is a profile write under one cursor and a window write under another. -/
theorem test_decode_mem_data :
    decode Config.atReset (.value 0x000043FF#32) (wr .memData 9 0x12345678#32) =
      .ok (.wrMemDataProf 9#64 0x12345678#32) ∧
    decode Config.atReset (.value 0x000003FF#32) (wr .memData 9 0x12345678#32) =
      .ok (.wrMemDataWin 9#64 0x12345678#32) := by decide

/-- R67: reserved 00, `SEL3` 00000, `SEL2` 00000, `SEL1` 00011, `SEL0` 00010, start 0001100100 (the example of rule R109). -/
theorem test_decode_cfg0 :
    decode Config.atReset .unwritten (wr .cfg0 42 0b00000000000000011000100001100100#32) =
      .ok (.wrCfg0 42#64 100#10 2#5 3#5 0#5 0#5 0#2) := by decide

/-- R68: reserved 00, then `SEL9` 6 down to `SEL4` 1 (the example of rule R107). -/
theorem test_decode_cfg1 :
    decode Config.atReset .unwritten (wr .cfg1 0 0b00001100010100100000110001000001#32) =
      .ok (.wrCfg1 0#64 1#5 2#5 3#5 4#5 5#5 6#5 0#2) := by decide

/-- R69: reserved 10, then `SEL15` 31 down to `SEL10` 26. -/
theorem test_decode_cfg2 :
    decode Config.atReset .unwritten (wr .cfg2 0 0b10111111111011101111001101111010#32) =
      .ok (.wrCfg2 0#64 26#5 27#5 28#5 29#5 30#5 31#5 2#2) := by decide

/-- R71: an event that is no operation, and the cause of each. -/
theorem test_decode_rejects :
    decode Config.atReset .unwritten ⟨0#64, 0x05#32, 0#32⟩ = .error .unknownAddress ∧
    decode Config.atReset .unwritten (wr .memData 0 0#32) = .error .unwritten ∧
    decode Config.atReset (.value 0x00008400#32) (wr .memData 0 0#32) = .error .unsupportedChannel ∧
    decode Config.atReset (.value 0x00004400#32) (wr .memData 0 0#32) = .error .addressRange := by decide

/-- The bit image of an event, and the step that runs it first after reset: `WR_CFG2 @0, 0x3FFFFFFF` (rule R108). -/
theorem test_table_word :
    decodeTableWord 160 0x00000000000000000000000000000000103FFFFFFF =
      some (.wrCfg2 0#64 31#5 31#5 31#5 31#5 31#5 31#5 0#2) ∧
    step (State.reset.withFetchWord 160 0x00000000000000000000000000000000103FFFFFFF) =
      exec (.wrCfg2 0#64 31#5 31#5 31#5 31#5 31#5 31#5 0#2)
        (State.reset.withFetchWord 160 0x00000000000000000000000000000000103FFFFFFF) :=
  ⟨by decide, eq_of_agrees (by decide +kernel)⟩

/-- The same for a profile write, whose row matches on the cursor. -/
theorem test_table_word_prof :
    decodeTableWord 160 0x00004007000000000000000900000004DEADBEEF = some (.wrMemDataProf 9#64 0xDEADBEEF#32) ∧
    step (State.reset.withFetchWord 160 0x00004007000000000000000900000004DEADBEEF) =
      exec (.wrMemDataProf 9#64 0xDEADBEEF#32)
        (State.reset.withFetchWord 160 0x00004007000000000000000900000004DEADBEEF) :=
  ⟨by decide, eq_of_agrees (by decide +kernel)⟩

/-! Single steps, with results from the spec's examples and vectors -/

/-- The example of rule R103. -/
theorem test_step_mem_addr :
    exec (.wrMemAddr 5#64 0#17 1#1 0x046#14) State.reset =
      .next { State.reset with cursor := .value 0x00004046#32, pc := 1 } :=
  eq_of_agrees (by decide +kernel)

/-- The example of rule R105, its first write. -/
theorem test_step_prof :
    exec (.wrMemDataProf 33#64 0x40000000#32) (at' (.value 0x00004000#32) []) =
      .next { at' (.value 0x00004001#32) [] with prof := [(0, 0x40000000#32)], pc := 1 } :=
  eq_of_agrees (by decide +kernel)

/-- The example of rule R104. -/
theorem test_step_win :
    exec (.wrMemDataWin 9#64 0xD0400402#32) (at' (.value 0x00000064#32) []) =
      .next { at' (.value 0x00000065#32) [] with win := [(100, 0xD0400402#32)], pc := 1 } :=
  eq_of_agrees (by decide +kernel)

/-- Rule R235: the last word of window memory, and the fault after it (`WADDR` 1024 with bit 14 still 0). -/
theorem test_step_win_end :
    exec (.wrMemDataWin 1#64 7#32) (at' (.value 0x000003FF#32) []) =
      .next { at' (.value 0x00000400#32) [] with win := [(1023, 7#32)], pc := 1 } ∧
    exec (.wrMemDataWin 2#64 8#32) (at' (.value 0x00000400#32) []) =
      .next { at' (.value 0x00000400#32) [] with fault := some ⟨.addressRange, 2#64, 0x04#32, 8#32⟩ } :=
  ⟨eq_of_agrees (by decide +kernel), eq_of_agrees (by decide +kernel)⟩

/-- Rule R206: a reserved data bit. -/
theorem test_step_cfg1_reserved :
    exec (.wrCfg1 0#64 0#5 0#5 0#5 0#5 0#5 0#5 1#2) State.reset =
      .next { State.reset with fault := some ⟨.reservedBits, 0#64, 0x0C#32, 0x40000000#32⟩ } :=
  eq_of_agrees (by decide +kernel)

/-- Rule R139: an empty window emits an empty waveform. -/
theorem test_step_empty_window : exec (trig 7#64) readyEmpty = .next fired := eq_of_agrees (by decide +kernel)

/-- Rule R187's example, as a step leaves it: weights `0x8000 * 0x4000 / 2^31` at the phases of sample indices 39 and 40. -/
theorem test_step_trigger :
    exec (trig 39#64) ready =
      .next { ready with
        out := [⟨39#64, [⟨[⟨⟨1 / 4, 0⟩, 0xC0000000#32⟩]⟩, ⟨[⟨⟨1 / 4, 0⟩, 0x00000000#32⟩]⟩]⟩], pc := 1 } :=
  eq_of_agrees (by decide +kernel)

/-- Rule R187's example in numbers, with a `CIS` exact at the quarter turns. -/
theorem test_pulse :
    Pulse.values quarterNumerics
      ⟨39#64, [⟨[⟨⟨1 / 4, 0⟩, 0xC0000000#32⟩]⟩, ⟨[⟨⟨1 / 4, 0⟩, 0x00000000#32⟩]⟩]⟩ =
      [⟨0, -1 / 4⟩, ⟨1 / 4, 0⟩] := by decide +kernel

/-- Rule R184 with an envelope that has a Q part (worked from the rule): `2^14 * i` turns the weight by a quarter. -/
theorem test_complex_envelope :
    waveform 0 [⟨0#32, 0x8000#16, 0#16⟩] [⟨0, 16384⟩] = [⟨[⟨⟨0, 1 / 4⟩, 0#32⟩]⟩] := by decide +kernel

/-- The example of rule R130. -/
theorem test_reconstruct :
    reconstruct [(0, 0xD0400402#32), (1, 0x00001000#32), (2, 0x20000000#32)] 0#10 =
      .ok [⟨2048, 0⟩, ⟨4096, 0⟩, ⟨2048, 4096⟩, ⟨0, 8192⟩, ⟨0, 4096⟩] := by decide +kernel

/-- Rule R100: equal times keep their input order. -/
theorem test_replay_order :
    replayOrder [wr .cfg1 3 1#32, wr .cfg1 (-2) 2#32, wr .cfg2 3 3#32] =
      [wr .cfg1 (-2) 2#32, wr .cfg1 3 1#32, wr .cfg2 3 3#32] := by decide

/-- Rule R75: the words of `SETPROF @0, 1, 3, -1, 0x8000, 0xC000` and of `SETWIN`'s header with `L = 2`, `rate = 2`,
`shift = 1`, `order = 1` (rule R130's example). -/
theorem test_pseudo :
    (setProf Config.atReset 0#64 1#4 3#5 (-1) 0x8000#16 0xC000#16).map Event.data =
      [0x00004046#32, 0xFFFFFFFF#32, 0xC0008000#32] ∧
    headerWord 2 2 1 1 = 0xD0400402#32 := by decide

/-! Witnesses: for each obligation with hypotheses, what meets them together -/

theorem witness_StepRunsDecodedOperation :
    willRun (at' .unwritten [wr .cfg2 0 0x3FFFFFFF#32]) (wr .cfg2 0 0x3FFFFFFF#32) ∧
    decode Config.atReset .unwritten (wr .cfg2 0 0x3FFFFFFF#32) =
      .ok (.wrCfg2 0#64 31#5 31#5 31#5 31#5 31#5 31#5 0#2) := by
  refine ⟨⟨?_, ?_, ?_⟩, ?_⟩ <;> decide

theorem witness_UndecodedEventFaults :
    willRun (at' .unwritten [wr .memData 1 1#32]) (wr .memData 1 1#32) ∧
    decode Config.atReset .unwritten (wr .memData 1 1#32) = .error .unwritten := by
  refine ⟨⟨?_, ?_, ?_⟩, ?_⟩ <;> decide

theorem witness_UnknownAddressWriteFaults :
    willRun (at' .unwritten [⟨1#64, 0x05#32, 9#32⟩]) ⟨1#64, 0x05#32, 9#32⟩ ∧
    (0x05#32 ≠ Config.atReset.addrMemAddr ∧ 0x05#32 ≠ Config.atReset.addrMemData ∧ 0x05#32 ≠ Config.atReset.addrCfg0 ∧
      0x05#32 ≠ Config.atReset.addrCfg1 ∧ 0x05#32 ≠ Config.atReset.addrCfg2) := by
  refine ⟨⟨?_, ?_, ?_⟩, ?_⟩ <;> decide

theorem witness_FaultedRunProcessesNothing :
    step { State.reset with fault := some ⟨.unwritten, 0#64, 4#32, 1#32⟩ } =
      .fault (.stopped ⟨.unwritten, 0#64, 4#32, 1#32⟩) ∧
    (State.reset.config.wf = true ∧ State.reset.fault = none ∧ nextEvent State.reset = none) :=
  ⟨eq_of_agrees (by decide +kernel), by decide⟩

theorem witness_IllFormedParametersRefused :
    step { State.reset with config := { Config.atReset with addrCfg2 := 0x00#32 } } = .refused .illFormedConfig ∧
    step { State.reset with config := { Config.atReset with clockRatio := 0 } } = .refused .illFormedConfig ∧
    step State.reset = .next State.reset :=
  ⟨eq_of_agrees (by decide +kernel), eq_of_agrees (by decide +kernel),
    eq_of_agrees (by decide +kernel)⟩

theorem witness_BoundaryAcceptsExactlyEvents :
    accept (.write (-2 ^ 63) (2 ^ 32 - 1) 0) = .ok ⟨0x8000000000000000#64, 0xFFFFFFFF#32, 0#32⟩ ∧
    accept (.write (2 ^ 63) 0 0) = .error .eventOutOfRange ∧ accept (.write 0 (2 ^ 32) 0) = .error .eventOutOfRange ∧
    accept (.write 0 0 (-1)) = .error .eventOutOfRange := by decide

theorem witness_DecodeInvertsEncode :
    Config.atReset.wf = true ∧
    (Instr.wrMemDataProf 1#64 2#32).matchesCursor Config.atReset (.value 0x000043FF#32) ∧
    (Instr.wrMemDataWin 1#64 2#32).matchesCursor Config.atReset (.value 0x000003FF#32) :=
  ⟨by decide, ⟨_, rfl, by decide⟩, ⟨_, rfl, by decide⟩⟩

theorem witness_EncodeInvertsDecode :
    decode Config.atReset (.value 0x00000000#32) (wr .memData 36 0xC0000002#32) =
      .ok (.wrMemDataWin 36#64 0xC0000002#32) := by decide

theorem witness_AddressWriteSetsCursor :
    willRun (at' .unwritten [wr .memAddr 0 0x00008000#32, wr .memData 1 1#32]) (wr .memAddr 0 0x00008000#32) ∧
    (at' .unwritten [wr .memAddr 0 0x00008000#32, wr .memData 1 1#32]).events[0 + 1]? = some (wr .memData 1 1#32) ∧
    checkedCursor (.value 0x00008000#32) = .error .unsupportedChannel := by
  refine ⟨⟨?_, ?_, ?_⟩, ?_⟩ <;> decide

/-- The lowest and the highest word of each memory, for the two data writes. -/
theorem witness_DataWritesStore :
    checkedCursor (.value 0x00004000#32) = .ok 0x00004000#32 ∧ checkedCursor (.value 0x000043FF#32) = .ok 0x000043FF#32 ∧
    checkedCursor (.value 0x00000000#32) = .ok 0x00000000#32 ∧ checkedCursor (.value 0x000003FF#32) = .ok 0x000003FF#32 := by
  decide

theorem witness_DataWriteFaultOrder :
    (at' .unwritten []).cursor = .unwritten ∧
    ((0x00008000#32 >>> 15 ≠ 0#32) ∧ (0x80000400#32 >>> 15 ≠ 0#32)) ∧
    (0x00000400#32 >>> 15 = 0#32 ∧ 1024 ≤ (0x00000400#32 |>.extractLsb' 0 14).toNat) ∧
    (0x00007FFF#32 >>> 15 = 0#32 ∧ 1024 ≤ (0x00007FFF#32 |>.extractLsb' 0 14).toNat) ∧
    willRun (at' (.value 0x00000400#32) [wr .memData 1 1#32]) (wr .memData 1 1#32) := by
  refine ⟨?_, ?_, ?_, ?_, ?_, ?_, ?_⟩ <;> decide

/-- A data write to word 1023 and to word 1022 of profile memory, each with another after it. -/
theorem witness_CursorStaysInItsMemory :
    let evs := [wr .memData 1 7#32, wr .memData 2 8#32]
    willRun (at' (.value 0x000043FF#32) evs) (wr .memData 1 7#32) ∧
    step (at' (.value 0x000043FF#32) evs) =
      .next { at' (.value 0x00004400#32) evs with prof := [(1023, 7#32)], pc := 1 } ∧
    step (at' (.value 0x000043FE#32) evs) =
      .next { at' (.value 0x000043FF#32) evs with prof := [(1022, 7#32)], pc := 1 } ∧
    evs[1]? = some (wr .memData 2 8#32) := by
  refine ⟨⟨by decide, by decide, by decide⟩, ?_, ?_, rfl⟩ <;> exact eq_of_agrees (by decide +kernel)

theorem witness_BurstStoresConsecutiveWords :
    cursorChan 0x000043FE#32 = 0#17 ∧ (cursorWaddr 0x000043FE#32).toNat + [1#32, 2#32].length ≤ 1024 ∧
    ∀ k, (h : k < [1#32, 2#32].length) →
      ∃ ev, (at' (.value 0x000043FE#32) [wr .memData 3 1#32, wr .memData 1 2#32]).events[0 + k]? = some ev ∧
        ev.address = Config.atReset.addrMemData ∧ ev.data = [1#32, 2#32][k] := by
  refine ⟨by decide, by decide, fun k h => ?_⟩
  obtain rfl | rfl : k = 0 ∨ k = 1 := by simp at h; omega
  · exact ⟨_, rfl, rfl, rfl⟩
  · exact ⟨_, rfl, rfl, rfl⟩

theorem witness_CfgSelects :
    willRun (at' .unwritten [wr .cfg1 0 0x0C520C41#32]) (wr .cfg1 0 0x0C520C41#32) ∧
    (wr .cfg1 0 0x0C520C41#32).data.extractLsb' 30 2 = 0#2 ∧
    willRun (at' .unwritten [wr .cfg2 0 0x3FFFFFFF#32]) (wr .cfg2 0 0x3FFFFFFF#32) ∧
    (wr .cfg2 0 0x3FFFFFFF#32).data.extractLsb' 30 2 = 0#2 := by
  refine ⟨⟨?_, ?_, ?_⟩, ?_, ⟨?_, ?_, ?_⟩, ?_⟩ <;> decide

theorem witness_ReservedDataBitsFault :
    willRun (at' .unwritten [wr .cfg0 0 0x40000000#32]) (wr .cfg0 0 0x40000000#32) ∧
    willRun (at' .unwritten [wr .cfg1 0 0x80000000#32]) (wr .cfg1 0 0x80000000#32) ∧
    willRun (at' .unwritten [wr .cfg2 0 0xC0000000#32]) (wr .cfg2 0 0xC0000000#32) ∧
    (wr .cfg0 0 0x40000000#32).data.extractLsb' 30 2 ≠ 0#2 := by
  refine ⟨⟨?_, ?_, ?_⟩, ⟨?_, ?_, ?_⟩, ⟨?_, ?_, ?_⟩, ?_⟩ <;> decide

/-- A repeated address write, a repeated data write (alone and as steps) and a repeated trigger, none of which faults. -/
theorem witness_RepeatedWrites :
    exec (.wrMemAddr 5#64 0#17 0#1 1#14) State.reset = .next { State.reset with cursor := .value 1#32, pc := 1 } ∧
    (exec (.wrMemDataWin 1#64 7#32) (at' (.value 0#32) []) =
        .next { at' (.value 1#32) [] with win := [(0, 7#32)], pc := 1 } ∧
      exec (.wrMemDataWin 1#64 7#32) { at' (.value 1#32) [] with win := [(0, 7#32)], pc := 1 } =
        .next { at' (.value 2#32) [] with win := [(0, 7#32), (1, 7#32)], pc := 2 }) ∧
    (let evs := [wr .memData 1 7#32, wr .memData 2 7#32];
      willRun (at' (.value 0#32) evs) (wr .memData 1 7#32) ∧
      step (at' (.value 0#32) evs) = .next { at' (.value 1#32) evs with win := [(0, 7#32)], pc := 1 } ∧
      step { at' (.value 1#32) evs with win := [(0, 7#32)], pc := 1 } =
        .next { at' (.value 2#32) evs with win := [(0, 7#32), (1, 7#32)], pc := 2 }) ∧
    (exec (trig 7#64) readyEmpty = .next fired ∧
      exec (trig 7#64) fired = .next { fired with out := [⟨7#64, []⟩, ⟨7#64, []⟩], pc := 2 }) := by
  refine ⟨?_, ⟨?_, ?_⟩, ⟨⟨by decide, by decide, by decide⟩, ?_, ?_⟩, ?_, ?_⟩ <;>
    exact eq_of_agrees (by decide +kernel)

/-- A trigger with two samples, all of whose stages succeed, alone and as a step. -/
theorem witness_TriggerSelectsAndEmits :
    (∀ o : Fin 16, (Vector.replicate 16 (.value 0#5) : Selection)[o] =
      if o.val = 0 then .value 0#5 else if o.val = 1 then .value 0#5 else if o.val = 2 then .value 0#5
      else if o.val = 3 then .value 0#5 else ready.sel[o]) ∧
    reconstruct ready.win 0#10 = .ok [⟨16384, 0⟩, ⟨16384, 0⟩] ∧ sampleTime ready.config 39#64 = .ok 39#64 ∧
    lookupAll (Vector.replicate 16 (.value 0#5)) ready.prof oscillators =
      .ok [⟨0x40000000#32, 0x8000#16, 0#16⟩] ∧
    (willRun { ready with events := [wr .cfg0 39 0#32] } (wr .cfg0 39 0#32) ∧
      (wr .cfg0 39 0#32).data.extractLsb' 30 2 = 0#2 ∧
      ∀ o : Fin 16, (Vector.replicate 16 (.value 0#5) : Selection)[o] =
        if o.val < 4 then .value ((wr .cfg0 39 0#32).data.extractLsb' (10 + 5 * o.val) 5) else ready.sel[o]) := by
  refine ⟨?_, ?_, ?_, ?_, ⟨?_, ?_, ?_⟩, ?_, ?_⟩ <;> decide +kernel

/-- A trigger that fails at each of its three stages. -/
theorem witness_TriggerFaultOrder :
    reconstruct State.reset.win 0#10 = .error .unwritten ∧
    (reconstruct ready.win 0#10 = .ok [⟨16384, 0⟩, ⟨16384, 0⟩] ∧
      sampleTime { Config.atReset with clockRatio := 1 / 2 } 3#64 = .error .sampleTimeInvalid) ∧
    (sampleTime Config.atReset 3#64 = .ok 3#64 ∧
      lookupAll (selectFrom ready.sel 0 [0#5, 1#5, 0#5, 0#5]) ready.prof oscillators = .error .unwritten) := by
  refine ⟨?_, ⟨?_, ?_⟩, ?_, ?_⟩ <;> decide +kernel

theorem ready_window : windowReady ready.win 0#10 := by
  refine ⟨0xC0000002#32, by decide, by decide, by decide, by decide, by decide, fun k h1 h2 => ?_⟩
  have h2 : k ≤ 2 := h2
  obtain rfl | rfl : k = 1 ∨ k = 2 := by omega
  · exact trivial
  · exact trivial

theorem ready_consistent : windowConsistent ready.win 0#10 := by
  rintro word h
  cases h
  decide

theorem ready_oscillators : ∀ o, oscillatorReady (selectFrom ready.sel 0 [0#5, 0#5, 0#5, 0#5]) ready.prof o := by
  have h0 : oscillatorReady (selectFrom ready.sel 0 [0#5, 0#5, 0#5, 0#5]) ready.prof 0 :=
    ⟨0#5, 0x8000#32, by decide, by decide, fun _ => trivial⟩
  have h1 : ∀ o : Fin 16, o ≠ 0 → (selectFrom ready.sel 0 [0#5, 0#5, 0#5, 0#5])[o] = .value 0#5 ∧
      Memory.read ready.prof (ampphAddr o 0#5) = .value 0#32 := by decide
  intro o
  by_cases h : o = 0
  · exact h ▸ h0
  · exact ⟨0#5, 0#32, (h1 o h).1, (h1 o h).2, fun h => absurd rfl h⟩

theorem witness_ReadyTriggerCompletes :
    windowReady ready.win 0#10 ∧ windowConsistent ready.win 0#10 ∧
    Memory.read ready.win 0 = .value 0xC0000002#32 ∧
    (∀ o, oscillatorReady (selectFrom ready.sel 0 [0#5, 0#5, 0#5, 0#5]) ready.prof o) ∧
    ((39#64).toInt : ℚ) = ((39#64).toInt : ℚ) * ready.config.clockRatio :=
  ⟨ready_window, ready_consistent, rfl, ready_oscillators, by decide +kernel⟩

/-- For `CompletedTriggerWasReady`, `TriggerFrame`, `OutputOnlyGrowsAtTriggers` and the run invariants: a trigger that emits,
alone and as a step. -/
theorem witness_CompletedTrigger :
    exec (trig 7#64) readyEmpty = .next fired ∧ fired.out ≠ readyEmpty.out ∧
    step { readyEmpty with events := [wr .cfg0 7 0#32] } = .next { fired with events := [wr .cfg0 7 0#32] } :=
  ⟨eq_of_agrees (by decide +kernel), by decide +kernel, eq_of_agrees (by decide +kernel)⟩

/-- Two states that agree on what the trigger reads and differ in the cursor and in a word it does not read. -/
theorem witness_ResultDependsOnlyOnReads :
    (∀ c ∈ readsOf ready (trig 39#64), c ≠ (MemoryName.prof, 2)) ∧ (MemoryName.win, 2) ∈ readsOf ready (trig 39#64) ∧
    (ready.setProf 2 1#32).prof ≠ ready.prof := by
  refine ⟨?_, ?_, ?_⟩ <;> decide

theorem witness_SampleTimeIsExact :
    ((12#64).toInt : ℚ) = ((8#64).toInt : ℚ) * (3 / 2) ∧
    sampleTime { Config.atReset with clockRatio := 4 } 0xE000000000000000#64 = .ok 0x8000000000000000#64 ∧
    sampleTime { Config.atReset with clockRatio := 4 } 0x2000000000000000#64 = .error .sampleTimeInvalid ∧
    sampleTime { Config.atReset with clockRatio := 3 / 2 } 7#64 = .error .sampleTimeInvalid := by
  refine ⟨?_, ?_, ?_, ?_⟩ <;> decide +kernel

theorem witness_UnmarkedHeaderFaults :
    Memory.read [(0, 0x40300001#32)] 0 = .value 0x40300001#32 ∧
    ¬((0x40300001#32).extractLsb' 30 1 = 1#1 ∧ (0x40300001#32).extractLsb' 31 1 = 1#1) := by decide

/-- A header for each clause, at the ends of its range: `start + L` 1024 and 1023, the last sample unwritten. -/
theorem witness_ReconstructFaultOrder :
    reconstruct [] 1023#10 = .error .unwritten ∧
    reconstruct [(0, 0x80000000#32)] 0#10 = .error .unsupportedWindowSegment ∧
    reconstruct [(0, 0xC0100000#32)] 0#10 = .error .reservedBits ∧
    reconstruct [(1023, 0xC0000001#32)] 1023#10 = .error .addressRange ∧
    reconstruct [(1021, 0xC0000002#32), (1022, 1#32)] 1021#10 = .error .unwritten ∧
    reconstruct [(0, 0xD0000400#32)] 0#10 = .error .internalConsistency := by
  refine ⟨?_, ?_, ?_, ?_, ?_, ?_⟩ <;> decide +kernel

theorem witness_EnvelopeOfReadyWindow :
    windowReady ready.win 0#10 ∧ windowConsistent ready.win 0#10 ∧ Memory.read ready.win 0 = .value 0xC0000002#32 :=
  ⟨ready_window, ready_consistent, rfl⟩

/-- For `HoldRepeatsEachSample`, `BoxIsFullConvolution`, `OrderOneIsLinearInterpolation` and `LengthCheckFailsOnlyWhenEmpty`:
the lists of rule R130's example before scaling. -/
theorem witness_Interpolation :
    hold [⟨4096, 0⟩, ⟨0, 8192⟩] 2 = [⟨4096, 0⟩, ⟨4096, 0⟩, ⟨0, 8192⟩, ⟨0, 8192⟩] ∧
    box [⟨4096, 0⟩, ⟨4096, 0⟩, ⟨0, 8192⟩, ⟨0, 8192⟩] 2 =
      [⟨4096, 0⟩, ⟨8192, 0⟩, ⟨4096, 8192⟩, ⟨0, 16384⟩, ⟨0, 8192⟩] ∧
    (cascade 2 1 (hold [] 2)).length ≠ ((0 : Nat) + 1) * 2 - 1 := by decide

theorem witness_CascadeStaysWithinGain :
    (⟨2 * -32768, 2 * 32767⟩ : Cx ℤ) ∈ cascade 2 1 (hold ([0x7FFF8000#32].map sampleOf) 2) := by decide

/-- Phases 0 and 2 of a negative step from sample index 1, and index 1 again `2^32` samples later (vector V-P2). -/
theorem witness_Phases :
    (phases 0xC0000000#32 (phaseInit ⟨0xC0000000#32, 1#16, 0x4000#16⟩ 1) 3) =
      [0x00000000#32, 0xC0000000#32, 0x80000000#32] ∧
    ((1 : Int) + (0 : Nat)) % 2 ^ 32 = ((2 ^ 32 - 1 : Int) + (2 : Nat)) % 2 ^ 32 := by decide

theorem witness_InactiveOscillatorAddsNothing :
    ready.sel[(1 : Fin 16)] = .value 0#5 ∧ Memory.read ready.prof (ampphAddr (1 : Fin 16) 0#5) = .value 0#32 ∧
    ampOf 0#32 = 0#16 ∧ Memory.read ready.prof (freqAddr (1 : Fin 16) 0#5) = .unwritten := by decide

/-- An active entry at the last two words of profile memory, each way a lookup faults, and a trigger that meets one. -/
theorem witness_LookupReadsSelectedEntry :
    lookup (Vector.replicate 16 (.value 31#5)) [(1022, 5#32), (1023, 0x00070001#32)] 15 = .ok (some ⟨5#32, 1#16, 7#16⟩) ∧
    lookup (Vector.replicate 16 .unwritten) [] 15 = .error .unwritten ∧
    lookup (Vector.replicate 16 (.value 31#5)) [(1022, 5#32)] 15 = .error .unwritten ∧
    lookup (Vector.replicate 16 (.value 31#5)) [(1023, 0x00070001#32)] 15 = .error .unwritten ∧
    (∀ o, lookup ready.sel ready.prof o =
      .ok (if o = 0 then some ⟨0x40000000#32, 0x8000#16, 0#16⟩ else none)) ∧
    (reconstruct ready.win 0#10 = .ok [⟨16384, 0⟩, ⟨16384, 0⟩] ∧ sampleTime ready.config 39#64 = .ok 39#64 ∧
      ¬oscillatorReady (selectFrom ready.sel 0 [0#5, 1#5, 0#5, 0#5]) ready.prof 1) := by
  refine ⟨?_, ?_, ?_, ?_, ?_, ?_, ?_, ?_⟩
  case refine_8 =>
    rintro ⟨q, word, hq, hw, -⟩
    obtain rfl : (1#5 : BitVec 5) = q := by
      have h : (selectFrom ready.sel 0 [0#5, 1#5, 0#5, 0#5])[(1 : Fin 16)] = .value 1#5 := by decide
      rw [h] at hq; simpa using hq
    have h : Memory.read ready.prof (ampphAddr (1 : Fin 16) 1#5) = .unwritten := by decide
    rw [h] at hw; cases hw
  all_goals decide +kernel

theorem witness_OscillatorOrderHasNoEffect :
    [(⟨1#32, 1#16, 0#16⟩ : Osc), ⟨2#32, 2#16, 0#16⟩].Perm [⟨2#32, 2#16, 0#16⟩, ⟨1#32, 1#16, 0#16⟩] := by decide

/-- The reference numerics exist, and one active oscillator over one sample has a sum. -/
theorem witness_ReferenceSumMagnitude :
    ∃ num : Numerics ℝ, num.Reference ∧ [(⟨1#32, 0xFFFF#16, 0#16⟩ : Osc)].length ≤ 16 ∧
      [⟨⟨65535, 0⟩, 0x00000000#32⟩] ∈ oscSum 0 1 [⟨1#32, 0xFFFF#16, 0#16⟩] :=
  ⟨⟨fun theta => ⟨Real.cos (2 * Real.pi * (theta.toNat : ℝ) / 2 ^ 32), Real.sin (2 * Real.pi * (theta.toNat : ℝ) / 2 ^ 32)⟩,
    fun z => z⟩, fun _ => rfl, by decide, by decide +kernel⟩

theorem witness_WaveformSampleFormula :
    (waveform 39 [⟨0x40000000#32, 0x8000#16, 0#16⟩] [⟨16384, 0⟩, ⟨16384, 0⟩]).map (Sample.value quarterNumerics) =
      [⟨0, -1 / 4⟩, ⟨1 / 4, 0⟩] := by decide +kernel

theorem witness_QuarterTurnPulse :
    quarterNumerics.Quarter ∧ quarterNumerics.Exact ∧ Config.atReset.clockRatio = 1 ∧
    Memory.read ready.prof 0 = .value 0x40000000#32 ∧ Memory.read ready.prof 1 = .value 0x00008000#32 ∧
    (∀ k < 16, 1 ≤ k → Memory.read ready.prof (64 * k + 1) = .value 0#32) ∧
    Memory.read ready.win 0 = .value 0xC0000002#32 ∧ Memory.read ready.win 1 = .value 0x00004000#32 ∧
    Memory.read ready.win 2 = .value 0x00004000#32 :=
  ⟨⟨by decide, by decide, by decide, by decide⟩, fun _ => rfl, rfl, by decide, by decide, by decide, by decide, by decide,
    by decide⟩

theorem witness_RunIgnoresRecordingOrder :
    [wr .memAddr 0 1#32, wr .memData 1 2#32].Perm [wr .memData 1 2#32, wr .memAddr 0 1#32] ∧
    ([wr .memAddr 0 1#32, wr .memData 1 2#32].map Event.time).Nodup := by decide

/-- A run that completes, a run that stops, and the empty run (for `RunCompletesOrStopsAtFirstFault`, `FaultsArePrecise` and
`EmptyRunGivesEmptyOutput`). -/
theorem witness_Runs :
    replay Config.atReset [wr .memData 1 2#32, wr .memAddr 0 1#32] = .ok [] ∧
    replay Config.atReset [wr .memData 1 1#32, wr .memAddr 0 0x00008000#32] =
      .err ⟨.unsupportedChannel, 1#64, 0x04#32, 1#32⟩ ∧
    Config.atReset.wf = true := by decide

/-- One step for each clause of `OnlyNamedWritesChangeState`, `PcAdvancesByOne` and `StepKeepsCanonicalMemory`, and a step
that faults. -/
theorem witness_Steps :
    step (at' .unwritten [wr .memAddr 0 5#32]) = .next { at' (.value 5#32) [wr .memAddr 0 5#32] with pc := 1 } ∧
    step (at' (.value 0x00004005#32) [wr .memData 0 7#32]) =
      .next { at' (.value 0x00004006#32) [wr .memData 0 7#32] with prof := [(5, 7#32)], pc := 1 } ∧
    step (at' (.value 0x00000005#32) [wr .memData 0 7#32]) =
      .next { at' (.value 0x00000006#32) [wr .memData 0 7#32] with win := [(5, 7#32)], pc := 1 } ∧
    step (at' .unwritten [wr .memData 0 7#32]) =
      .next { at' .unwritten [wr .memData 0 7#32] with fault := some ⟨.unwritten, 0#64, 0x04#32, 7#32⟩ } := by
  refine ⟨?_, ?_, ?_, ?_⟩ <;> exact eq_of_agrees (by decide +kernel)

/-- For `StepKeepsOutputOrder` and `StepKeepsOneResultPerTrigger`: a state with a result already emitted and a later event
to come, and its step. -/
theorem witness_RunInvariants :
    let events := [wr .cfg0 7 0#32, wr .memAddr 7 3#32]
    let s : State := { fired with events := events }
    events.Pairwise (fun a b => a.time.toInt ≤ b.time.toInt) ∧
    (∀ p ∈ s.out, ∀ ev ∈ s.events.drop s.pc, (p.sampleTime.toInt : ℚ) ≤ (ev.time.toInt : ℚ) * s.config.clockRatio) ∧
    s.out.length = (s.events.take s.pc).countP (fun ev => ev.address == s.config.addrCfg0) ∧
    step s = .next { s with cursor := .value 3#32, pc := 2 } := by
  exact ⟨by decide +kernel, by decide +kernel, by decide +kernel, eq_of_agrees (by decide +kernel)⟩

theorem witness_SetProfProgramsEntry :
    let evs := setProf Config.atReset 0#64 15#4 31#5 (-1) 0xFFFF#16 1#16
    Config.atReset.wf = true ∧ (∀ k < 3, (at' .unwritten evs).events[0 + k]? = evs[k]?) ∧
    freqAddr 15 31#5 = 1022 ∧ ampphAddr 15 31#5 = 1023 := by
  refine ⟨?_, fun k _ => by rw [Nat.zero_add]; rfl, ?_, ?_⟩ <;> decide

end Sys2Proof.Tests
end

section
/-! Rule R32: which write can change each of `CURSOR`, `SEL`, `PROF` and `WIN`. First what the decoder says of the event
behind an operation, then field by field what an operation's effect can change, then the step. -/

namespace Sys2Proof

/-- The cursor check only ever lets the cursor's own value through (rule R104). -/
theorem eq_value_of_checkedCursor {r : Reg 32} {c : Word} (h : checkedCursor r = .ok c) : r = .value c :=
  (checkedCursor_ok.1 h).1

/-- The second decode of a data write, by the cursor (rule R76). -/
theorem decode_of_memData {c : Config} {cursor : Reg 32} {ev : Event} {i : Instr}
    (hr : c.registerAt ev.address = some .memData) (h : decode c cursor ev = .ok i) :
    ∃ cur, checkedCursor cursor = .ok cur ∧
      ((cursorMsel cur = c.profileSel ∧ i = .wrMemDataProf ev.time ev.data) ∨
       (cursorMsel cur ≠ c.profileSel ∧ i = .wrMemDataWin ev.time ev.data)) := by
  simp only [decode, hr] at h
  split at h
  · cases h
  · next cur hcur =>
    refine ⟨cur, hcur, ?_⟩
    split at h
    · next hm => cases h; exact .inl ⟨hm, rfl⟩
    · next hm => cases h; exact .inr ⟨hm, rfl⟩

/-- An event decodes to an operation on the register its address selects (rule R61). -/
theorem registerAt_of_decode {c : Config} {cursor : Reg 32} {ev : Event} {i : Instr} (h : decode c cursor ev = .ok i) :
    c.registerAt ev.address = some i.register := by
  cases hr : c.registerAt ev.address with
  | none => simp [decode, hr] at h
  | some r =>
    cases r with
    | memData => obtain ⟨cur, -, ⟨-, rfl⟩ | ⟨-, rfl⟩⟩ := decode_of_memData hr h <;> rfl
    | memAddr | cfg0 | cfg1 | cfg2 => simp only [decode, hr] at h; cases h; rfl

/-- An event that decodes carries the address of its operation's register (rule R61). -/
theorem address_of_decode {c : Config} {cursor : Reg 32} {ev : Event} {i : Instr} (h : decode c cursor ev = .ok i) :
    ev.address = c.addressOf i.register :=
  (Config.addressOf_of_registerAt (registerAt_of_decode h)).symm

/-- The event and the cursor of a profile-memory write. -/
theorem decode_wrMemDataProf {c : Config} {cursor : Reg 32} {ev : Event} {time : Time} {data : Word}
    (h : decode c cursor ev = .ok (.wrMemDataProf time data)) :
    data = ev.data ∧ ∃ cur, checkedCursor cursor = .ok cur ∧ cursorMsel cur = c.profileSel := by
  obtain ⟨cur, hcur, ⟨hm, e⟩ | ⟨-, e⟩⟩ := decode_of_memData (registerAt_of_decode h) h
  · cases e; exact ⟨rfl, cur, hcur, hm⟩
  · cases e

/-- The event and the cursor of a window-memory write. -/
theorem decode_wrMemDataWin {c : Config} {cursor : Reg 32} {ev : Event} {time : Time} {data : Word}
    (h : decode c cursor ev = .ok (.wrMemDataWin time data)) :
    data = ev.data ∧ ∃ cur, checkedCursor cursor = .ok cur ∧ cursorMsel cur ≠ c.profileSel := by
  obtain ⟨cur, hcur, ⟨-, e⟩ | ⟨hm, e⟩⟩ := decode_of_memData (registerAt_of_decode h) h
  · cases e
  · cases e; exact ⟨rfl, cur, hcur, hm⟩

end Sys2Proof

namespace Sys2Proof.Machine

/-- The configuration register that selects oscillator `o`'s profile (rules R107 to R109). -/
def selectingRegister (o : Fin 16) : Register :=
  if o.val < 4 then .cfg0 else if o.val < 10 then .cfg1 else .cfg2

theorem addressOf_selectingRegister (c : Config) (o : Fin 16) :
    c.addressOf (selectingRegister o) =
      if o.val < 4 then c.addrCfg0 else if o.val < 10 then c.addrCfg1 else c.addrCfg2 := by
  unfold selectingRegister
  split_ifs <;> rfl

/-- A word that a write changes is the word written, and then holds the value written. -/
theorem Memory.eq_of_read_write_ne {m : Memory} {a a' : Nat} {v : Word}
    (h : Memory.read (Memory.write m a v) a' ≠ Memory.read m a') :
    a' = a ∧ Memory.read (Memory.write m a v) a' = .value v := by
  by_cases e : a' = a
  · exact ⟨e, by rw [e, Memory.read_write_self]⟩
  · exact absurd (Memory.read_write_other m v e) h

/-- A selection changes only the oscillators of its own fields. -/
theorem bounds_of_selectFrom_ne {sel : Selection} {base : Nat} {qs : List (BitVec 5)} {o : Fin 16}
    (h : (selectFrom sel base qs)[o] ≠ sel[o]) : base ≤ o.val ∧ o.val - base < qs.length := by
  by_contra hb
  exact h (by rw [selectFrom_get, dif_neg hb])

/-- Only the two memory registers move the cursor (rules R103, R104). -/
theorem Effect.register_of_cursor_ne {s u : State} {i : Instr} (h : Effect s i u) (hne : u.cursor ≠ s.cursor) :
    i.register = .memAddr ∨ i.register = .memData := by
  cases h with
  | memAddr => exact .inl rfl
  | memDataProf | memDataWin => exact .inr rfl
  | cfg0 | cfg1 | cfg2 => simp at hne

/-- Only a profile-memory write changes profile memory, and only the cursor's word (rule R105). -/
theorem Effect.of_prof_ne {s u : State} {i : Instr} {a : Nat} (h : Effect s i u)
    (hne : Memory.read u.prof a ≠ Memory.read s.prof a) :
    ∃ time data cur, i = .wrMemDataProf time data ∧ checkedCursor s.cursor = .ok cur ∧
      a = (cursorWaddr cur).toNat ∧ Memory.read u.prof a = .value data := by
  cases h with
  | memDataProf time data cur hcur => exact ⟨time, data, cur, rfl, hcur, Memory.eq_of_read_write_ne hne⟩
  | memAddr | memDataWin | cfg0 | cfg1 | cfg2 => simp at hne

/-- Only a window-memory write changes window memory, and only the cursor's word (rule R106). -/
theorem Effect.of_win_ne {s u : State} {i : Instr} {a : Nat} (h : Effect s i u)
    (hne : Memory.read u.win a ≠ Memory.read s.win a) :
    ∃ time data cur, i = .wrMemDataWin time data ∧ checkedCursor s.cursor = .ok cur ∧
      a = (cursorWaddr cur).toNat ∧ Memory.read u.win a = .value data := by
  cases h with
  | memDataWin time data cur hcur => exact ⟨time, data, cur, rfl, hcur, Memory.eq_of_read_write_ne hne⟩
  | memAddr | memDataProf | cfg0 | cfg1 | cfg2 => simp at hne

/-- Only its own configuration register changes an oscillator's selection (rules R107 to R109). -/
theorem Effect.register_of_sel_ne {s u : State} {i : Instr} {o : Fin 16} (h : Effect s i u)
    (hne : u.sel[o] ≠ s.sel[o]) : i.register = selectingRegister o := by
  have ho := o.isLt
  cases h with
  | memAddr | memDataProf | memDataWin => simp at hne
  | cfg0 =>
    obtain ⟨-, hhi⟩ : 0 ≤ o.val ∧ o.val - 0 < 4 := bounds_of_selectFrom_ne hne
    rw [selectingRegister, if_pos (by omega)]; rfl
  | cfg1 =>
    obtain ⟨hlo, hhi⟩ : 4 ≤ o.val ∧ o.val - 4 < 6 := bounds_of_selectFrom_ne hne
    rw [selectingRegister, if_neg (by omega), if_pos (by omega)]; rfl
  | cfg2 =>
    obtain ⟨hlo, -⟩ : 10 ≤ o.val ∧ o.val - 10 < 6 := bounds_of_selectFrom_ne hne
    rw [selectingRegister, if_neg (by omega), if_neg (by omega)]; rfl

/-- A step leaves cursor, selection and memories alone (no event left, or a fault is taken), or it has the effect of the
operation its event decodes to. -/
theorem step_frame_or_effect {s t : State} (h : step s = .next t) :
    (t.cursor = s.cursor ∧ t.sel = s.sel ∧ t.prof = s.prof ∧ t.win = s.win) ∨
    ∃ ev i u, nextEvent s = some ev ∧ decode s.config s.cursor ev = .ok i ∧ Effect s i u ∧ t = u.advance := by
  obtain ⟨-, -, ⟨-, rfl⟩ | ⟨ev, cause, -, -, rfl⟩ | ⟨ev, i, he, hd, hx⟩⟩ := step_cases h
  · exact .inl ⟨rfl, rfl, rfl, rfl⟩
  · exact .inl ⟨rfl, rfl, rfl, rfl⟩
  · rcases exec_cases hx with ⟨cause, rfl⟩ | ⟨u, hu, rfl⟩
    · exact .inl ⟨rfl, rfl, rfl, rfl⟩
    · exact .inr ⟨ev, i, u, he, hd, hu, rfl⟩

/-- Settles O51, by the effect of the step's operation: the field that changed names the operation, and the decoder took
its register and data from the event. -/
theorem onlyNamedWritesChangeState : Obligations.OnlyNamedWritesChangeState := by
  intro s t h
  rcases step_frame_or_effect h with ⟨hcursor, hsel, hprof, hwin⟩ | ⟨ev, i, u, he, hd, hu, rfl⟩
  · simp [hcursor, hsel, hprof, hwin]
  have haddr := address_of_decode hd
  refine ⟨fun hne => ⟨ev, he, ?_⟩, fun a hne => ?_, fun a hne => ?_, fun o hne => ⟨ev, he, ?_⟩⟩
  · rcases hu.register_of_cursor_ne hne with hr | hr
    · exact .inl (by rw [haddr, hr]; rfl)
    · exact .inr (by rw [haddr, hr]; rfl)
  · obtain ⟨time, data, cur, rfl, hcur, ha, hv⟩ := hu.of_prof_ne hne
    obtain ⟨rfl, cur', hcur', hm⟩ := decode_wrMemDataProf hd
    cases hcur.symm.trans hcur'
    exact ⟨ev, cur, he, haddr, eq_value_of_checkedCursor hcur, hm, ha, hv⟩
  · obtain ⟨time, data, cur, rfl, hcur, ha, hv⟩ := hu.of_win_ne hne
    obtain ⟨rfl, cur', hcur', hm⟩ := decode_wrMemDataWin hd
    cases hcur.symm.trans hcur'
    exact ⟨ev, cur, he, haddr, eq_value_of_checkedCursor hcur, hm, ha, hv⟩
  · rw [haddr, hu.register_of_sel_ne hne, addressOf_selectingRegister]

end Sys2Proof.Machine
end

section
/-! The sequencer and the decoder: the replay order (rule R100), the empty run (rule R102), and the writes of the address
register and of no register (rules R103, R110). First what each of the three decodes to, then the step on it. -/

namespace Sys2Proof

/-- The three fields of format `CUR` hold the whole word (rule R62). -/
theorem curWord_fields (w : Word) : curWord (cursorChan w) (cursorMsel w) (cursorWaddr w) = w := by
  have hhigh : cursorChan w ++ cursorMsel w = w.extractLsb' 14 18 :=
    BitVec.extractLsb'_append_extractLsb'_eq_extractLsb' (by decide)
  have hall : w.extractLsb' 14 18 ++ cursorWaddr w = w.extractLsb' 0 32 :=
    BitVec.extractLsb'_append_extractLsb'_eq_extractLsb' (by decide)
  rw [curWord, hhigh]
  exact hall.trans BitVec.extractLsb'_eq_self

/-- A write of no register decodes to no operation (rule R110). -/
theorem decode_of_registerAt_none {c : Config} {cursor : Reg 32} {ev : Event} (hr : c.registerAt ev.address = none) :
    decode c cursor ev = .error .unknownAddress := by
  simp only [decode, hr]

/-- A write of the address register decodes to `WR_MEM_ADDR` under every cursor (rule R103). -/
theorem decode_of_memAddr {c : Config} {cursor : Reg 32} {ev : Event} (hr : c.registerAt ev.address = some .memAddr) :
    decode c cursor ev =
      .ok (.wrMemAddr ev.time (cursorChan ev.data) (cursorMsel ev.data) (cursorWaddr ev.data)) := by
  simp only [decode, hr]

/-- A data write under a cursor it cannot use decodes to no operation, with the cursor's cause (rules R76, R104). -/
theorem decode_of_memData_of_error {c : Config} {cursor : Reg 32} {ev : Event} {cause : Cause}
    (hr : c.registerAt ev.address = some .memData) (hc : checkedCursor cursor = .error cause) :
    decode c cursor ev = .error cause := by
  simp only [decode, hr, hc]

end Sys2Proof

namespace Sys2Proof.Machine

/-- `WR_MEM_ADDR` sets the cursor to its word and advances, from every state (rule R103). -/
theorem exec_wrMemAddr (t : Time) (chan : BitVec 17) (msel : BitVec 1) (waddr : BitVec 14) (s : State) :
    exec (.wrMemAddr t chan msel waddr) s = .next (s.setCursor (curWord chan msel waddr)).advance := rfl

/-- The step on a write of the address register: its data word is the new cursor (rules R101, R103). -/
theorem step_of_memAddr {s : State} {ev : Event} (h : willRun s ev) (ha : ev.address = s.config.addrMemAddr) :
    step s = .next (s.setCursor ev.data).advance := by
  obtain ⟨hw, hf, he⟩ := h
  have hr : s.config.registerAt ev.address = some .memAddr := by rw [ha]; exact Config.registerAt_addressOf hw .memAddr
  rw [step_of_decoded hw hf he (decode_of_memAddr hr), exec_wrMemAddr, curWord_fields]

/-- The step on a data write under a cursor it cannot use (rules R101, R104, R210). -/
theorem step_of_memData_of_error {s : State} {ev : Event} {cause : Cause} (h : willRun s ev)
    (ha : ev.address = s.config.addrMemData) (hc : checkedCursor s.cursor = .error cause) :
    step s = .next (s.setFault cause ev) := by
  obtain ⟨hw, hf, he⟩ := h
  have hr : s.config.registerAt ev.address = some .memData := by rw [ha]; exact Config.registerAt_addressOf hw .memData
  exact step_of_rejected hw hf he (decode_of_memData_of_error hr hc)

/-- Setting the cursor and advancing leaves a run ready for the event after this one (rules R27, R103). -/
theorem willRun_setCursor_advance {s : State} {ev ev' : Event} (h : willRun s ev) (c : Word)
    (he : s.events[s.pc + 1]? = some ev') : willRun (s.setCursor c).advance ev' := by
  obtain ⟨hw, hf, -⟩ := h
  exact ⟨hw, hf, he⟩

/-! The replay order -/

/-- The order on `time` is total and transitive, so the sort leaves the list ascending (rule R100). -/
theorem replayOrder_ascending (events : List Event) : (replayOrder events).Pairwise notLater := by
  have : Std.Total notLater := ⟨fun a b => le_total a.time.toInt b.time.toInt⟩
  have : IsTrans Event notLater := ⟨fun _ _ _ => le_trans⟩
  exact List.pairwise_insertionSort notLater events

theorem replayOrder_perm (events : List Event) : (replayOrder events).Perm events :=
  List.perm_insertionSort notLater events

/-- Events that stand in ascending order already keep their order, and the sort adds none of their kind (rule R100). -/
theorem filter_replayOrder {events : List Event} {p : Event → Bool} (h : (events.filter p).Pairwise notLater) :
    (replayOrder events).filter p = events.filter p := by
  have hkept : (events.filter p).Sublist (replayOrder events) := List.sublist_insertionSort h List.filter_sublist
  have hsub : (events.filter p).Sublist ((replayOrder events).filter p) := by simpa using hkept.filter p
  exact (hsub.eq_of_length ((replayOrder_perm events).filter p).length_eq.symm).symm

/-- The sort is stable: events of equal time are in ascending order already (rule R100). -/
theorem replayOrder_stable (events : List Event) (t : Time) :
    (replayOrder events).filter (fun ev => ev.time == t) = events.filter (fun ev => ev.time == t) := by
  refine filter_replayOrder (List.pairwise_of_forall_mem_list fun a ha b hb => ?_)
  have hab : a.time = t ∧ b.time = t := by simpa using And.intro (List.of_mem_filter ha) (List.of_mem_filter hb)
  simp [notLater, hab]

/-- Settles O45, by the three properties of the sort. -/
theorem replayOrderIsStableSort : Obligations.ReplayOrderIsStableSort := fun c events =>
  ⟨replayOrder_ascending events, replayOrder_perm events, replayOrder_stable events, start_events c events,
    start_pc c events⟩

/-! The writes of no register and of the address register -/

/-- Settles O4: an address that is none of the five selects no register, so the event is no operation. -/
theorem unknownAddressWriteFaults : Obligations.UnknownAddressWriteFaults := by
  intro s ev ⟨hw, hf, he⟩ hMemAddr hMemData hCfg0 hCfg1 hCfg2
  have hr : s.config.registerAt ev.address = none := by
    simp [Config.registerAt_eq_none, Config.addresses, hMemAddr, hMemData, hCfg0, hCfg1, hCfg2]
  exact step_of_rejected hw hf he (decode_of_registerAt_none hr)

/-- Settles O12: the address write runs under every cursor, and the first to check the new one is the next data write. -/
theorem addressWriteSetsCursor : Obligations.AddressWriteSetsCursor := by
  refine ⟨fun s t chan msel waddr => exec_wrMemAddr t chan msel waddr s, fun s ev h ha => step_of_memAddr h ha, ?_⟩
  intro s ev ev' cause h _ he' ha' hc
  exact step_of_memData_of_error (s := (s.setCursor ev.data).advance) (willRun_setCursor_advance h ev.data he') ha' hc

/-! The empty run -/

/-- Settles O47: with no event the run's one step holds the state it starts from, which has no fault and no output. -/
theorem emptyRunGivesEmptyOutput : Obligations.EmptyRunGivesEmptyOutput := by
  intro c hw
  have hstep : step (start c []) = .next (start c []) := step_of_no_event hw (start_fault c []) rfl
  calc replay c [] = observe (.next (start c [])) := congrArg observe (run_succ_of_next hstep)
    _ = .ok [] := rfl

end Sys2Proof.Machine
end

section
/-! The window interpolator: what the hold, the boxcar pass and the cascade answer (rules R134 to R136). First the sum of a
list, part by part. -/

namespace Sys2Proof.Machine

/-- A sum of numbers is taken part by part (rule R12). -/
theorem cxSum_eq_sum {K : Type} [AddMonoid K] (zs : List (Cx K)) :
    cxSum zs = ⟨(zs.map Cx.re).sum, (zs.map Cx.im).sum⟩ := by
  induction zs with
  | nil => rfl
  | cons z zs ih => simp [cxSum, cxAdd, ih]

theorem cxSum_map_range {K : Type} [AddCommMonoid K] (f : ℕ → Cx K) (n : ℕ) :
    cxSum ((List.range n).map f) = ⟨∑ j ∈ Finset.range n, (f j).re, ∑ j ∈ Finset.range n, (f j).im⟩ := by
  rw [cxSum_eq_sum, List.map_map, List.map_map]
  rfl

/-! The hold -/

@[simp] theorem hold_nil (rate : ℕ) : hold [] rate = [] := rfl

@[simp] theorem hold_cons (z : Cx ℤ) (x : List (Cx ℤ)) (rate : ℕ) :
    hold (z :: x) rate = List.replicate rate z ++ hold x rate := List.flatMap_cons

@[simp] theorem length_hold (x : List (Cx ℤ)) (rate : ℕ) : (hold x rate).length = x.length * rate := by
  simp [hold]

/-- An element of the first block is the first sample; one after it is the element `rate` places earlier of the hold of
the samples that follow (rule R134). -/
theorem getElem?_hold {rate : ℕ} (hr : 0 < rate) (x : List (Cx ℤ)) (k : ℕ) : (hold x rate)[k]? = x[k / rate]? := by
  induction x generalizing k with
  | nil => simp
  | cons z x ih =>
    rw [hold_cons]
    by_cases hk : k < rate
    · rw [List.getElem?_append_left (by simpa using hk), List.getElem?_replicate_of_lt hk, Nat.div_eq_of_lt hk,
        List.getElem?_cons_zero]
    · have hle : rate ≤ k := Nat.le_of_not_lt hk
      rw [List.getElem?_append_right (by simpa using hle), List.length_replicate, ih, Nat.div_eq_sub_div hr hle,
        List.getElem?_cons_succ]

/-- Settles O32: an index below `L * rate` exists only when the rate is not 0. -/
theorem holdRepeatsEachSample : Obligations.HoldRepeatsEachSample := fun x rate =>
  ⟨length_hold x rate, fun k hk => getElem?_hold (Nat.pos_of_lt_mul_left hk) x k⟩

/-! The boxcar pass -/

/-- Both ways to leave the list give 0: an index before its start and one from its length on (rule R135). -/
theorem tap_eq_ite (x : List (Cx ℤ)) (m j : ℕ) :
    tap x m j = if j ≤ m ∧ m - j < x.length then x.getD (m - j) cxZero else cxZero := by
  unfold tap
  by_cases hin : m - j < x.length
  · simp only [hin, and_true]
  · simp only [hin, and_false, List.getD_eq_default x cxZero (Nat.le_of_not_lt hin), ite_self]

@[simp] theorem box_nil (rate : ℕ) : box [] rate = [] := rfl

theorem box_of_ne_nil {x : List (Cx ℤ)} (hx : x ≠ []) (rate : ℕ) :
    box x rate = (List.range (x.length + rate - 1)).map fun m => cxSum ((List.range rate).map (tap x m)) :=
  if_neg (by simpa using hx)

theorem length_box {x : List (Cx ℤ)} (hx : x ≠ []) (rate : ℕ) : (box x rate).length = x.length + rate - 1 := by
  simp [box_of_ne_nil hx]

theorem getElem?_box {x : List (Cx ℤ)} {rate m : ℕ} (hx : x ≠ []) (hm : m < x.length + rate - 1) :
    (box x rate)[m]? =
      some ⟨∑ j ∈ Finset.range rate, (tap x m j).re, ∑ j ∈ Finset.range rate, (tap x m j).im⟩ := by
  rw [box_of_ne_nil hx, List.getElem?_map, List.getElem?_range hm, Option.map_some, cxSum_map_range]

/-- Settles O33, by the elements of the pass as sums of taps. -/
theorem boxIsFullConvolution : Obligations.BoxIsFullConvolution := by
  refine ⟨box_nil, fun x rate hx _ => ⟨length_box hx rate, fun m hm => ?_⟩⟩
  simp only [getElem?_box hx hm, tap_eq_ite, apply_ite Cx.re, apply_ite Cx.im, cxZero]

/-! The cascade -/

@[simp] theorem cascade_zero (rate : ℕ) (y : List (Cx ℤ)) : cascade rate 0 y = y := rfl

theorem cascade_eq_iterate (rate order : ℕ) (y : List (Cx ℤ)) :
    cascade rate order y = (fun z => box z rate)^[order] y := by
  induction order generalizing y with
  | zero => rfl
  | succ order ih => exact ih (box y rate)

/-- The model takes the first pass off the front; taken off the end, the last pass is applied to the result of those
before it (rule R136). -/
theorem cascade_succ (rate order : ℕ) (y : List (Cx ℤ)) :
    cascade rate (order + 1) y = box (cascade rate order y) rate := by
  rw [cascade_eq_iterate, cascade_eq_iterate, Function.iterate_succ_apply']

/-- Settles O34: the cascade is the iterate of the pass, which can be taken apart from either end. -/
theorem cascadeAppliesOrderPasses : Obligations.CascadeAppliesOrderPasses := fun rate order y =>
  ⟨cascade_eq_iterate rate order y, cascade_zero rate y, cascade_succ rate order y⟩

end Sys2Proof.Machine
end

section
/-! The fault of a window header without both segment markers (rules R132, R203): from the header check to the
reconstruction, and from a reconstruction that faults to the trigger that starts it. -/

namespace Sys2Proof.Machine

/-- A header that fails its check ends the reconstruction with the check's cause: the samples come after it (rule R212). -/
theorem reconstruct_of_checkHeader_error {win : Memory} {start : BitVec 10} {word : Word} {cause : Cause}
    (hr : Memory.read win start.toNat = .value word)
    (hc : checkHeader start.toNat (headerOf word) = .error cause) : reconstruct win start = .error cause := by
  simp [reconstruct, bind, Except.bind, hr, hc]

/-- The markers are the first check on a header, so without both of them no other bit of it counts (rule R132). -/
theorem reconstruct_of_unmarked {win : Memory} {start : BitVec 10} {word : Word}
    (hr : Memory.read win start.toNat = .value word)
    (hm : ¬((headerOf word).head = 1#1 ∧ (headerOf word).tail = 1#1)) :
    reconstruct win start = .error .unsupportedWindowSegment :=
  reconstruct_of_checkHeader_error hr (checkHeader_error.2 (.inl ⟨hm, rfl⟩))

/-- A trigger whose synthesis faults takes that fault for its own event, and neither selects nor emits
(rules R109, R187, R210). -/
theorem exec_wrCfg0_of_synthesise_error {s : State} {t : Time} {start : BitVec 10} {q0 q1 q2 q3 : BitVec 5}
    {cause : Cause}
    (h : synthesise s.config (selectFrom s.sel 0 [q0, q1, q2, q3]) s.prof s.win start t = .error cause) :
    exec (.wrCfg0 t start q0 q1 q2 q3 0#2) s =
      .next (s.setFault cause (encode s.config (.wrCfg0 t start q0 q1 q2 q3 0#2))) :=
  execWrCfg0_next.2 (.inr (.inl ⟨rfl, cause, h, rfl⟩))

/-- The reconstruction is the first stage of a trigger, so its fault is the trigger's (rule R212). -/
theorem exec_wrCfg0_of_reconstruct_error {s : State} {t : Time} {start : BitVec 10} {q0 q1 q2 q3 : BitVec 5}
    {cause : Cause} (h : reconstruct s.win start = .error cause) :
    exec (.wrCfg0 t start q0 q1 q2 q3 0#2) s =
      .next (s.setFault cause (encode s.config (.wrCfg0 t start q0 q1 q2 q3 0#2))) :=
  exec_wrCfg0_of_synthesise_error (synthesise_error.2 (.inl h))

/-- Settles O29: the header check comes before the samples, and the reconstruction before the other stages of the
trigger. -/
theorem unmarkedHeaderFaults : Obligations.UnmarkedHeaderFaults := by
  intro s t start q0 q1 q2 q3 word hr hm
  have hrec : reconstruct s.win start = .error .unsupportedWindowSegment := reconstruct_of_unmarked hr hm
  exact ⟨hrec, _, exec_wrCfg0_of_reconstruct_error hrec, rfl⟩

end Sys2Proof.Machine
end

section
/-! The formats of the five registers (rules R61 to R69, R76): the fields of each word, the word of its fields, and the
two round trips between events and operations. -/

namespace Sys2Proof

/-! The fields of the words. Each proof drops the fields below the one asked for, then those above it. -/

theorem cursorChan_curWord (chan : BitVec 17) (msel : BitVec 1) (waddr : BitVec 14) :
    cursorChan (curWord chan msel waddr) = chan :=
  BitVec.extractLsb'_append_eq_of_le (by decide) |>.trans BitVec.extractLsb'_append_eq_left

theorem cursorMsel_curWord (chan : BitVec 17) (msel : BitVec 1) (waddr : BitVec 14) :
    cursorMsel (curWord chan msel waddr) = msel :=
  BitVec.extractLsb'_append_eq_of_le (by decide) |>.trans BitVec.extractLsb'_append_eq_right

theorem cursorWaddr_curWord (chan : BitVec 17) (msel : BitVec 1) (waddr : BitVec 14) :
    cursorWaddr (curWord chan msel waddr) = waddr :=
  BitVec.extractLsb'_append_eq_right

/-- The fields of a word of format `CFG0` are those it was assembled from (rule R67). -/
theorem cfg0Word_unpack (start : BitVec 10) (q0 q1 q2 q3 : BitVec 5) (rsvd : BitVec 2) :
    cfg0Start (cfg0Word start q0 q1 q2 q3 rsvd) = start ∧ cfg0Field (cfg0Word start q0 q1 q2 q3 rsvd) 0 = q0 ∧
    cfg0Field (cfg0Word start q0 q1 q2 q3 rsvd) 1 = q1 ∧ cfg0Field (cfg0Word start q0 q1 q2 q3 rsvd) 2 = q2 ∧
    cfg0Field (cfg0Word start q0 q1 q2 q3 rsvd) 3 = q3 ∧ cfgRsvd (cfg0Word start q0 q1 q2 q3 rsvd) = rsvd := by
  refine ⟨?_, ?_, ?_, ?_, ?_, ?_⟩ <;> change BitVec.extractLsb' (n := 2 + 5 + 5 + 5 + 5 + 10) _ _ _ = _ <;>
    simp (disch := decide) only [cfg0Word, BitVec.extractLsb'_append_eq_of_le,
      BitVec.extractLsb'_append_eq_of_add_le] <;>
    exact BitVec.extractLsb'_eq_self

/-- The fields of a word of format `CFG1` or `CFG2` are those it was assembled from (rules R68, R69). -/
theorem cfgWord_unpack (a b c d e f : BitVec 5) (rsvd : BitVec 2) :
    cfgField (cfgWord a b c d e f rsvd) 0 = a ∧ cfgField (cfgWord a b c d e f rsvd) 1 = b ∧
    cfgField (cfgWord a b c d e f rsvd) 2 = c ∧ cfgField (cfgWord a b c d e f rsvd) 3 = d ∧
    cfgField (cfgWord a b c d e f rsvd) 4 = e ∧ cfgField (cfgWord a b c d e f rsvd) 5 = f ∧
    cfgRsvd (cfgWord a b c d e f rsvd) = rsvd := by
  refine ⟨?_, ?_, ?_, ?_, ?_, ?_, ?_⟩ <;> change BitVec.extractLsb' (n := 2 + 5 + 5 + 5 + 5 + 5 + 5) _ _ _ = _ <;>
    simp (disch := decide) only [cfgWord, BitVec.extractLsb'_append_eq_of_le,
      BitVec.extractLsb'_append_eq_of_add_le] <;>
    exact BitVec.extractLsb'_eq_self

/-- The fields of a header word are those it was assembled from (rule R65). -/
theorem headerOf_append (tail head : BitVec 1) (order : BitVec 2) (shift : BitVec 6) (rsvd : BitVec 2)
    (rate length : BitVec 10) :
    Machine.headerOf (tail ++ head ++ order ++ shift ++ rsvd ++ rate ++ length) =
      { length := length.toNat, rate := rate.toNat + 1, rsvd := rsvd, shift := shift.toNat, order := order.toNat,
        head := head, tail := tail } := by
  rw [Machine.headerOf, Machine.Header.mk.injEq, BitVec.toNat_inj, Nat.add_right_cancel_iff, BitVec.toNat_inj,
    BitVec.toNat_inj, BitVec.toNat_inj]
  refine ⟨?_, ?_, ?_, ?_, ?_, ?_, ?_⟩ <;> change BitVec.extractLsb' (n := 1 + 1 + 2 + 6 + 2 + 10 + 10) _ _ _ = _ <;>
    simp (disch := decide) only [BitVec.extractLsb'_append_eq_of_le, BitVec.extractLsb'_append_eq_of_add_le] <;>
    exact BitVec.extractLsb'_eq_self

/-- The halves of a word of two 16-bit fields. -/
theorem extractLsb'_halves (hi lo : BitVec 16) :
    (hi ++ lo : Word).extractLsb' 0 16 = lo ∧ (hi ++ lo : Word).extractLsb' 16 16 = hi :=
  ⟨BitVec.extractLsb'_append_eq_right, BitVec.extractLsb'_append_eq_left⟩

/-! The word of the fields. Each proof joins two neighbouring fields at a time, from the highest. -/

/-- The six fields of format `CFG0` hold the whole word (rule R67). -/
theorem cfg0Word_fields (w : Word) :
    cfg0Word (cfg0Start w) (cfg0Field w 0) (cfg0Field w 1) (cfg0Field w 2) (cfg0Field w 3) (cfgRsvd w) = w := by
  change cfgRsvd w ++ cfg0Field w 3 ++ cfg0Field w 2 ++ cfg0Field w 1 ++ cfg0Field w 0 ++ cfg0Start w = _
  simp (disch := decide) only [cfg0Field, cfgRsvd, BitVec.extractLsb'_append_extractLsb'_eq_extractLsb']
  exact (BitVec.extractLsb'_append_extractLsb'_eq_extractLsb' (by decide)).trans BitVec.extractLsb'_eq_self

/-- The seven fields of formats `CFG1` and `CFG2` hold the whole word (rules R68, R69). -/
theorem cfgWord_fields (w : Word) :
    cfgWord (cfgField w 0) (cfgField w 1) (cfgField w 2) (cfgField w 3) (cfgField w 4) (cfgField w 5) (cfgRsvd w) =
      w := by
  change cfgRsvd w ++ cfgField w 5 ++ cfgField w 4 ++ cfgField w 3 ++ cfgField w 2 ++ cfgField w 1 ++ cfgField w 0 = _
  simp (disch := decide) only [cfgField, cfgRsvd, BitVec.extractLsb'_append_extractLsb'_eq_extractLsb']
  exact BitVec.extractLsb'_eq_self

/-! What each register's event decodes to -/

/-- A data write whose cursor names profile memory decodes to the profile row (rule R76). -/
theorem decode_of_memData_of_profile {c : Config} {cursor : Reg 32} {ev : Event} {cur : Word}
    (hr : c.registerAt ev.address = some .memData) (hc : checkedCursor cursor = .ok cur)
    (hm : cursorMsel cur = c.profileSel) : decode c cursor ev = .ok (.wrMemDataProf ev.time ev.data) := by
  simp only [decode, hr, hc, if_pos hm]

/-- A data write whose cursor names window memory decodes to the window row (rule R76). -/
theorem decode_of_memData_of_window {c : Config} {cursor : Reg 32} {ev : Event} {cur : Word}
    (hr : c.registerAt ev.address = some .memData) (hc : checkedCursor cursor = .ok cur)
    (hm : cursorMsel cur ≠ c.profileSel) : decode c cursor ev = .ok (.wrMemDataWin ev.time ev.data) := by
  simp only [decode, hr, hc, if_neg hm]

/-- A write of `CFG0` decodes under every cursor, whatever its reserved bits are (rule R67). -/
theorem decode_of_cfg0 {c : Config} {cursor : Reg 32} {ev : Event} (hr : c.registerAt ev.address = some .cfg0) :
    decode c cursor ev = .ok (.wrCfg0 ev.time (cfg0Start ev.data) (cfg0Field ev.data 0) (cfg0Field ev.data 1)
      (cfg0Field ev.data 2) (cfg0Field ev.data 3) (cfgRsvd ev.data)) := by
  simp only [decode, hr]

/-- A write of `CFG1` decodes under every cursor, whatever its reserved bits are (rule R68). -/
theorem decode_of_cfg1 {c : Config} {cursor : Reg 32} {ev : Event} (hr : c.registerAt ev.address = some .cfg1) :
    decode c cursor ev = .ok (.wrCfg1 ev.time (cfgField ev.data 0) (cfgField ev.data 1) (cfgField ev.data 2)
      (cfgField ev.data 3) (cfgField ev.data 4) (cfgField ev.data 5) (cfgRsvd ev.data)) := by
  simp only [decode, hr]

/-- A write of `CFG2` decodes under every cursor, whatever its reserved bits are (rule R69). -/
theorem decode_of_cfg2 {c : Config} {cursor : Reg 32} {ev : Event} (hr : c.registerAt ev.address = some .cfg2) :
    decode c cursor ev = .ok (.wrCfg2 ev.time (cfgField ev.data 0) (cfgField ev.data 1) (cfgField ev.data 2)
      (cfgField ev.data 3) (cfgField ev.data 4) (cfgField ev.data 5) (cfgRsvd ev.data)) := by
  simp only [decode, hr]

/-! The round trips -/

/-- The address of an operation's event selects the operation's register (rules R8, R61). -/
theorem registerAt_encode {c : Config} (hw : c.wf = true) (i : Instr) :
    c.registerAt (encode c i).address = some i.register :=
  Config.registerAt_addressOf hw i.register

/-- Decoding the event of an operation gives the operation back (rules R61, R76). -/
theorem decode_encode {c : Config} {cursor : Reg 32} {i : Instr} (hw : c.wf = true) (hm : i.matchesCursor c cursor) :
    decode c cursor (encode c i) = .ok i := by
  have hr := registerAt_encode hw i
  cases i with
  | wrMemAddr t chan msel waddr =>
    rw [decode_of_memAddr hr]
    simp only [encode, Instr.time, Instr.data, cursorChan_curWord, cursorMsel_curWord, cursorWaddr_curWord]
  | wrMemDataProf t data =>
    obtain ⟨cur, hc, hsel⟩ := hm
    exact decode_of_memData_of_profile hr hc hsel
  | wrMemDataWin t data =>
    obtain ⟨cur, hc, hsel⟩ := hm
    exact decode_of_memData_of_window hr hc hsel
  | wrCfg0 t start q0 q1 q2 q3 rsvd =>
    rw [decode_of_cfg0 hr]
    simp only [encode, Instr.time, Instr.data, cfg0Word_unpack]
  | wrCfg1 t q4 q5 q6 q7 q8 q9 rsvd =>
    rw [decode_of_cfg1 hr]
    simp only [encode, Instr.time, Instr.data, cfgWord_unpack]
  | wrCfg2 t q10 q11 q12 q13 q14 q15 rsvd =>
    rw [decode_of_cfg2 hr]
    simp only [encode, Instr.time, Instr.data, cfgWord_unpack]

/-- An event that decodes is at its operation's time (rule R60). -/
theorem time_of_decode {c : Config} {cursor : Reg 32} {ev : Event} {i : Instr} (h : decode c cursor ev = .ok i) :
    i.time = ev.time := by
  cases hr : c.registerAt ev.address with
  | none => simp [decode_of_registerAt_none hr] at h
  | some r =>
    cases r with
    | memAddr => rw [decode_of_memAddr hr] at h; cases h; rfl
    | memData => obtain ⟨cur, -, ⟨-, rfl⟩ | ⟨-, rfl⟩⟩ := decode_of_memData hr h <;> rfl
    | cfg0 => rw [decode_of_cfg0 hr] at h; cases h; rfl
    | cfg1 => rw [decode_of_cfg1 hr] at h; cases h; rfl
    | cfg2 => rw [decode_of_cfg2 hr] at h; cases h; rfl

/-- An event that decodes carries its operation's data word, every bit of it (rules R62 to R69). -/
theorem data_of_decode {c : Config} {cursor : Reg 32} {ev : Event} {i : Instr} (h : decode c cursor ev = .ok i) :
    i.data = ev.data := by
  cases hr : c.registerAt ev.address with
  | none => simp [decode_of_registerAt_none hr] at h
  | some r =>
    cases r with
    | memAddr => rw [decode_of_memAddr hr] at h; cases h; exact curWord_fields ev.data
    | memData => obtain ⟨cur, -, ⟨-, rfl⟩ | ⟨-, rfl⟩⟩ := decode_of_memData hr h <;> rfl
    | cfg0 => rw [decode_of_cfg0 hr] at h; cases h; exact cfg0Word_fields ev.data
    | cfg1 => rw [decode_of_cfg1 hr] at h; cases h; exact cfgWord_fields ev.data
    | cfg2 => rw [decode_of_cfg2 hr] at h; cases h; exact cfgWord_fields ev.data

/-- Encoding the operation an event decodes to gives the event back (rules R60, R61). -/
theorem encode_of_decode {c : Config} {cursor : Reg 32} {ev : Event} {i : Instr} (h : decode c cursor ev = .ok i) :
    encode c i = ev := by
  have htime := time_of_decode h
  have haddress := address_of_decode h
  have hdata := data_of_decode h
  cases ev
  simp_all [encode]

/-- Settles O9, by the fields of each format's word. -/
theorem decodeInvertsEncode : Obligations.DecodeInvertsEncode := fun _ _ _ hw hm => decode_encode hw hm

/-- Settles O10: time, address and data of the event are those of its operation. -/
theorem encodeInvertsDecode : Obligations.EncodeInvertsDecode := fun _ _ _ _ h => encode_of_decode h

/-- Settles O8, by evaluating the decoder on the six words. -/
theorem specWordsDecode : Obligations.SpecWordsDecode := by
  refine ⟨?_, ?_, ?_, ?_, ?_, ?_⟩ <;> decide

/-- Settles O11: each field is cut out of the concatenation where it stands. -/
theorem operandWordsUnpack : Obligations.OperandWordsUnpack := by
  refine ⟨headerOf_append, fun i q => ?_, fun a p => extractLsb'_halves p a⟩
  obtain ⟨hi, hq⟩ := extractLsb'_halves q i
  rw [Machine.sampleOf, hi, hq]

end Sys2Proof
end

section
/-! What one step can do, and what every step keeps: precise faults, `pc`, the output list and the three invariants
(rules R23 to R27, R180, R182, R209, R210). -/

namespace Sys2Proof.Machine

/-! The sample time -/

/-- The test of rule R182 on the product, and the two answers. -/
theorem sampleTime_eq_ite (c : Config) (t : Time) (q : ℚ) (hq : (t.toInt : ℚ) * c.clockRatio = q) :
    sampleTime c t = if q.den ≠ 1 ∨ q.num < -2 ^ 63 ∨ 2 ^ 63 ≤ q.num then .error .sampleTimeInvalid
      else .ok (BitVec.ofInt 64 q.num) := by
  subst hq; rfl

/-- The sample time is the exact product where that is an `i64` (rule R182). -/
theorem sampleTime_eq_ok_iff {c : Config} {t st : Time} :
    sampleTime c t = .ok st ↔ (st.toInt : ℚ) = (t.toInt : ℚ) * c.clockRatio := by
  generalize hq : (t.toInt : ℚ) * c.clockRatio = q
  rw [sampleTime_eq_ite c t q hq]
  constructor
  · intro h
    split at h
    · cases h
    · next hq =>
      obtain ⟨hden, hlo, hhi⟩ : q.den = 1 ∧ -2 ^ 63 ≤ q.num ∧ q.num < 2 ^ 63 := by simpa [not_or] using hq
      cases h
      rw [BitVec.toInt_ofInt_eq_self (by decide) hlo hhi]
      exact (Rat.den_eq_one_iff q).1 hden
  · rintro rfl
    have hlo : -2 ^ 63 ≤ st.toInt := BitVec.le_toInt st
    have hhi : st.toInt < 2 ^ 63 := BitVec.toInt_lt
    rw [if_neg (by simp only [Rat.den_intCast, Rat.num_intCast]; omega), Rat.num_intCast, BitVec.ofInt_toInt]

/-- The only fault of the sample time (rule R208). -/
theorem eq_of_sampleTime_eq_error {c : Config} {t : Time} {cause : Cause} (h : sampleTime c t = .error cause) :
    cause = .sampleTimeInvalid := by
  rw [sampleTime_eq_ite c t _ rfl] at h
  split at h <;> cases h
  rfl

/-- Settles O28: where no sample time is the product, the sample time is no value and so its one fault. -/
theorem sampleTimeIsExact : Obligations.SampleTimeIsExact := by
  refine fun c t => ⟨fun st => sampleTime_eq_ok_iff, fun hno => ?_⟩
  cases h : sampleTime c t with
  | ok st => exact absurd (sampleTime_eq_ok_iff.1 h) (hno st)
  | error cause => rw [eq_of_sampleTime_eq_error h]

/-! What an operation that does not fault keeps -/

/-- No operation changes the parameters, the events or `FAULT`, and none but the advance moves `pc`. -/
theorem Effect.frame {s u : State} {i : Instr} (h : Effect s i u) :
    u.config = s.config ∧ u.events = s.events ∧ u.pc = s.pc ∧ u.fault = s.fault := by
  cases h <;> simp

/-- A trigger appends one result, at its sample time; no other operation changes the output (rules R180, R186). -/
theorem Effect.out_cases {s u : State} {i : Instr} (h : Effect s i u) :
    (i.register ≠ .cfg0 ∧ u.out = s.out) ∨
    (i.register = .cfg0 ∧ ∃ p, sampleTime s.config i.time = .ok p.sampleTime ∧ u.out = s.out ++ [p]) := by
  cases h with
  | memAddr | memDataProf | memDataWin | cfg1 | cfg2 => exact .inl ⟨nofun, by simp⟩
  | cfg0 t start q0 q1 q2 q3 p hp =>
    obtain ⟨env, st, oscs, -, hst, -, rfl⟩ := synthesise_ok.1 hp
    exact .inr ⟨rfl, ⟨st, waveform st.toInt oscs env⟩, hst, rfl⟩

/-- A data write stores below word 1024, and no other operation writes a memory (rules R41, R104). -/
theorem Effect.keeps_canonical {s u : State} {i : Instr} (h : Effect s i u)
    (hp : Memory.wf s.prof = true) (hw : Memory.wf s.win = true) :
    Memory.wf u.prof = true ∧ Memory.wf u.win = true := by
  cases h with
  | memAddr | cfg0 | cfg1 | cfg2 => exact ⟨by simpa using hp, by simpa using hw⟩
  | memDataProf t data cur hc =>
    obtain ⟨-, -, hlt⟩ := checkedCursor_ok.1 hc
    exact ⟨Memory.write_wf data hlt hp, hw⟩
  | memDataWin t data cur hc =>
    obtain ⟨-, -, hlt⟩ := checkedCursor_ok.1 hc
    exact ⟨hp, Memory.write_wf data hlt hw⟩

/-! The step -/

/-- Everything a step can do: with no event left nothing changes; else the next event sets `FAULT` alone, or it decodes
to an operation, has its effect and advances `pc` (rules R27, R101, R210). -/
theorem step_next_cases {s t : State} (h : step s = .next t) :
    (nextEvent s = none ∧ t = s) ∨
    ∃ ev, nextEvent s = some ev ∧
      ((∃ cause, t = s.setFault cause ev) ∨
       ∃ i u, decode s.config s.cursor ev = .ok i ∧ Effect s i u ∧ t = u.advance) := by
  obtain ⟨-, -, hnone | ⟨ev, cause, he, -, ht⟩ | ⟨ev, i, he, hd, hx⟩⟩ := step_cases h
  · exact .inl hnone
  · exact .inr ⟨ev, he, .inl ⟨cause, ht⟩⟩
  · rcases exec_cases hx with ⟨cause, ht⟩ | ⟨u, hu, ht⟩
    · rw [encode_of_decode hd] at ht
      exact .inr ⟨ev, he, .inl ⟨cause, ht⟩⟩
    · exact .inr ⟨ev, he, .inr ⟨i, u, hd, hu, ht⟩⟩

/-- A state that a step leaves had well-formed parameters and no fault (rules R8, R211). -/
theorem wf_and_no_fault_of_step {s t : State} (h : step s = .next t) : s.config.wf = true ∧ s.fault = none := by
  obtain ⟨hw, hf, -⟩ := step_cases h
  exact ⟨hw, hf⟩

/-- The events not yet processed, from the next one on (rule R27). -/
theorem drop_pc_of_nextEvent {s : State} {ev : Event} (h : nextEvent s = some ev) :
    s.events.drop s.pc = ev :: s.events.drop (s.pc + 1) := by
  obtain ⟨hlt, he⟩ := List.getElem?_eq_some_iff.1 h
  rw [List.drop_eq_getElem_cons hlt, he]

/-- The events processed, once the next one is too (rule R27). -/
theorem take_pc_succ_of_nextEvent {s : State} {ev : Event} (h : nextEvent s = some ev) :
    s.events.take (s.pc + 1) = s.events.take s.pc ++ [ev] := by
  obtain ⟨hlt, he⟩ := List.getElem?_eq_some_iff.1 h
  rw [List.take_succ_eq_append_getElem hlt, he]

/-- Settles O49: a step that ends in a fault has no operation's effect, since none sets `FAULT`. -/
theorem faultsArePrecise : Obligations.FaultsArePrecise := by
  intro s t h hne
  obtain ⟨-, hf⟩ := wf_and_no_fault_of_step h
  rcases step_next_cases h with ⟨-, rfl⟩ | ⟨ev, he, ⟨cause, rfl⟩ | ⟨i, u, -, hu, rfl⟩⟩
  · exact absurd hf hne
  · exact ⟨ev, cause, he, rfl⟩
  · obtain ⟨-, -, -, hfault⟩ := hu.frame
    exact absurd (hfault.trans hf) hne

/-- Settles O50, by the cases of the step. -/
theorem pcAdvancesByOne : Obligations.PcAdvancesByOne := by
  intro s t ev he h
  obtain ⟨-, hf⟩ := wf_and_no_fault_of_step h
  rcases step_next_cases h with ⟨hnone, -⟩ | ⟨ev', -, ⟨cause, rfl⟩ | ⟨i, u, -, hu, rfl⟩⟩
  · rw [hnone] at he; cases he
  · exact ⟨nofun, fun _ => rfl⟩
  · obtain ⟨-, -, hpc, hfault⟩ := hu.frame
    exact ⟨fun _ => by rw [State.advance_pc, hpc], fun hne => absurd (hfault.trans hf) hne⟩

/-- Settles O52, by the effects of the operations. -/
theorem outputOnlyGrowsAtTriggers : Obligations.OutputOnlyGrowsAtTriggers := by
  intro s t h
  rcases step_next_cases h with ⟨-, rfl⟩ | ⟨ev, he, ⟨cause, rfl⟩ | ⟨i, u, hd, hu, rfl⟩⟩
  · exact ⟨rfl, rfl, .inl rfl⟩
  · exact ⟨rfl, rfl, .inl rfl⟩
  · obtain ⟨hconfig, hevents, -, -⟩ := hu.frame
    refine ⟨hconfig, hevents, ?_⟩
    rcases hu.out_cases with ⟨-, hout⟩ | ⟨hreg, p, -, hout⟩
    · exact .inl hout
    · exact .inr ⟨ev, p, he, by rw [address_of_decode hd, hreg]; rfl, hout⟩

/-! The invariants -/

/-- Settles O53, by the effects of the operations. -/
theorem stepKeepsCanonicalMemory : Obligations.StepKeepsCanonicalMemory := by
  rintro s t ⟨hp, hw⟩ h
  rcases step_next_cases h with ⟨-, rfl⟩ | ⟨ev, -, ⟨cause, rfl⟩ | ⟨i, u, -, hu, rfl⟩⟩
  · exact ⟨hp, hw⟩
  · exact ⟨hp, hw⟩
  · exact hu.keeps_canonical hp hw

/-- A later event's time, times a positive clock ratio, is no earlier as a sample time (rule R182). -/
theorem scaled_time_mono {c : Config} {ev ev' : Event} (hw : c.wf = true) (h : notLater ev ev') :
    (ev.time.toInt : ℚ) * c.clockRatio ≤ (ev'.time.toInt : ℚ) * c.clockRatio := by
  obtain ⟨-, hpos⟩ := (Config.wf_iff c).1 hw
  exact mul_le_mul_of_nonneg_right (by exact_mod_cast h) hpos.le

/-- Settles O55. A new result has the sample time of the event that emits it: earlier results are not after that event,
which is the first of those still to come, and later events are not before it. -/
theorem stepKeepsOutputOrder : Obligations.StepKeepsOutputOrder := by
  rintro s t ⟨hevents, hout, hahead⟩ h
  obtain ⟨hw, -⟩ := wf_and_no_fault_of_step h
  rcases step_next_cases h with ⟨-, rfl⟩ | ⟨ev, he, ⟨cause, rfl⟩ | ⟨i, u, hd, hu, rfl⟩⟩
  · exact ⟨hevents, hout, hahead⟩
  · exact ⟨hevents, hout, hahead⟩
  have hdrop := drop_pc_of_nextEvent he
  have hahead' : ∀ p ∈ s.out, ∀ e ∈ s.events.drop (s.pc + 1),
      (p.sampleTime.toInt : ℚ) ≤ (e.time.toInt : ℚ) * s.config.clockRatio :=
    fun p hp e hmem => hahead p hp e (hdrop ▸ List.mem_cons_of_mem ev hmem)
  obtain ⟨hc, hev, hpc, -⟩ := hu.frame
  simp only [State.advance_config, State.advance_events, State.advance_pc, State.advance_out, hc, hev, hpc]
  refine ⟨hevents, ?_⟩
  rcases hu.out_cases with ⟨-, ho⟩ | ⟨-, p, hst, ho⟩
  · rw [ho]; exact ⟨hout, hahead'⟩
  · rw [time_of_decode hd, sampleTime_eq_ok_iff] at hst
    have hlater : ∀ e ∈ s.events.drop (s.pc + 1), notLater ev e :=
      (List.pairwise_cons.1 (hdrop ▸ hevents.sublist (List.drop_sublist s.pc s.events))).1
    have hbefore : ∀ q ∈ s.out, q.sampleTime.toInt ≤ p.sampleTime.toInt := fun q hq => by
      have hle := hahead q hq ev (hdrop ▸ List.mem_cons_self)
      rw [← hst] at hle
      exact_mod_cast hle
    rw [ho]
    refine ⟨List.pairwise_append.2 ⟨hout, List.pairwise_singleton _ p, by simpa using hbefore⟩, fun q hq e hmem => ?_⟩
    rcases List.mem_append.1 hq with hq | hq
    · exact hahead' q hq e hmem
    · rw [List.mem_singleton.1 hq, hst]
      exact scaled_time_mono hw (hlater e hmem)

/-- An event that decodes is a write of `CFG0` exactly when its operation is the trigger (rules R8, R61). -/
theorem address_eq_addrCfg0_iff {c : Config} {cursor : Reg 32} {ev : Event} {i : Instr} (hw : c.wf = true)
    (hd : decode c cursor ev = .ok i) : ev.address = c.addrCfg0 ↔ i.register = .cfg0 := by
  constructor
  · intro ha
    have hr := registerAt_of_decode hd
    rw [ha, show c.addrCfg0 = c.addressOf .cfg0 from rfl, Config.registerAt_addressOf hw] at hr
    exact (Option.some.inj hr).symm
  · intro hr
    rw [address_of_decode hd, hr]; rfl

/-- Settles O56: the event that `pc` passes is a `CFG0` write exactly when its operation emits. -/
theorem stepKeepsOneResultPerTrigger : Obligations.StepKeepsOneResultPerTrigger := by
  intro s t hcount h
  obtain ⟨hw, -⟩ := wf_and_no_fault_of_step h
  rcases step_next_cases h with ⟨-, rfl⟩ | ⟨ev, he, ⟨cause, rfl⟩ | ⟨i, u, hd, hu, rfl⟩⟩
  · exact hcount
  · exact hcount
  obtain ⟨hc, hev, hpc, -⟩ := hu.frame
  simp only [State.advance_config, State.advance_events, State.advance_pc, State.advance_out, hc, hev, hpc,
    take_pc_succ_of_nextEvent he, List.countP_append, List.countP_singleton, beq_iff_eq,
    address_eq_addrCfg0_iff hw hd, ← hcount]
  rcases hu.out_cases with ⟨hr, ho⟩ | ⟨hr, p, -, ho⟩
  · rw [ho, if_neg hr, Nat.add_zero]
  · rw [ho, if_pos hr, List.length_append, List.length_singleton]

/-- Settles O54: both memories are empty at reset. -/
theorem resetMemoryCanonical : Obligations.ResetMemoryCanonical :=
  ⟨fun _ => ⟨Memory.wf_nil, Memory.wf_nil⟩, Memory.wf_nil, Memory.wf_nil⟩

/-- Settles O57: the events start sorted, with no result and none processed. -/
theorem startMeetsRunInvariants : Obligations.StartMeetsRunInvariants := fun _ events =>
  ⟨replayOrder_ascending events, List.Pairwise.nil, nofun, rfl⟩

/-! Reset, and the step's answers one by one -/

/-- Settles O1, by the fields of the reset state. -/
theorem resetHoldsNothing : Obligations.ResetHoldsNothing :=
  ⟨fun _ => ⟨rfl, fun o => by simp, fun _ => rfl, fun _ => rfl, rfl, rfl, rfl⟩, rfl⟩

/-- Settles O2, by the step on an event that decodes. -/
theorem stepRunsDecodedOperation : Obligations.StepRunsDecodedOperation := fun _ _ _ ⟨hw, hf, he⟩ hd =>
  step_of_decoded hw hf he hd

/-- Settles O3, by the step on an event that does not decode. -/
theorem undecodedEventFaults : Obligations.UndecodedEventFaults := fun _ _ _ ⟨hw, hf, he⟩ hd =>
  step_of_rejected hw hf he hd

/-- Settles O5, by the step after a fault and the step with no event left. -/
theorem faultedRunProcessesNothing : Obligations.FaultedRunProcessesNothing := fun _ hw =>
  ⟨fun _ hf => step_of_fault hw hf, fun hf he => step_of_no_event hw hf he⟩

/-- With well-formed parameters and no earlier fault a step answers a next state (rules R8, R101). -/
theorem step_answers_next {s : State} (hw : s.config.wf = true) (hf : s.fault = none) : ∃ t, step s = .next t := by
  cases he : nextEvent s with
  | none => exact ⟨s, step_of_no_event hw hf he⟩
  | some ev =>
    cases hd : decode s.config s.cursor ev with
    | error cause => exact ⟨_, step_of_rejected hw hf he hd⟩
    | ok i => rw [step_of_decoded hw hf he hd]; exact exec_answers_next i s

/-- With well-formed parameters a step refuses nothing: it answers a next state, or is stopped by an earlier fault. -/
theorem step_ne_refused {s : State} {r : Refusal} (hw : s.config.wf = true) : step s ≠ .refused r := by
  cases hf : s.fault with
  | some record => rw [step_of_fault hw hf]; nofun
  | none =>
    obtain ⟨t, ht⟩ := step_answers_next hw hf
    rw [ht]; nofun

theorem step_of_not_wf {s : State} (hw : ¬s.config.wf = true) : step s = .refused .illFormedConfig :=
  if_neg hw

/-- Settles O6: the parameters are the first thing a step looks at, and it refuses for no other reason. -/
theorem illFormedParametersRefused : Obligations.IllFormedParametersRefused := by
  intro s
  have hwf : s.config.wf = true ↔ _ := Config.wf_iff s.config
  by_cases hw : s.config.wf = true
  · exact ⟨⟨fun h => absurd h (step_ne_refused hw), fun h => absurd (hwf.1 hw) h⟩,
      fun r h => absurd h (step_ne_refused hw)⟩
  · refine ⟨⟨fun _ h => hw (hwf.2 h), fun _ => step_of_not_wf hw⟩, fun r h => ?_⟩
    rw [step_of_not_wf hw] at h
    cases h; rfl

/-- An `u32` value is the value of its word. -/
theorem toNat_ofInt_of_u32 {n : ℤ} (h0 : 0 ≤ n) (h1 : n < 2 ^ 32) : ((BitVec.ofInt 32 n).toNat : ℤ) = n := by
  rw [BitVec.toNat_ofInt]
  omega

/-- Settles O7: the range check is the whole of the boundary, and in range no value is changed. -/
theorem boundaryAcceptsExactlyEvents : Obligations.BoundaryAcceptsExactlyEvents := by
  refine ⟨fun _ => rfl, fun t a d => ⟨fun h => ⟨_, if_pos h, ?_⟩, fun h => if_neg h⟩⟩
  obtain ⟨⟨htlo, hthi⟩, ⟨halo, hahi⟩, hdlo, hdhi⟩ := h
  exact ⟨BitVec.toInt_ofInt_eq_self (by decide) htlo hthi, toNat_ofInt_of_u32 halo hahi, toNat_ofInt_of_u32 hdlo hdhi⟩

/-- Settles O59: the codes are pairwise different. -/
theorem causeCodes : Obligations.CauseCodes := by
  refine ⟨rfl, rfl, rfl, rfl, rfl, rfl, rfl, rfl, fun a b h => ?_⟩
  cases a <;> cases b <;> cases h <;> rfl

end Sys2Proof.Machine
end

section
/-! The memory port: the cursor's fields under the increment, one data write, and a burst of them (rules R75, R104
to R106, R111, R235). -/

namespace Sys2Proof

/-! The cursor's fields -/

theorem toNat_cursorChan (c : Word) : (cursorChan c).toNat = c.toNat / 2 ^ 15 := by
  have hc : c.toNat < 2 ^ 32 := c.isLt
  rw [cursorChan, BitVec.extractLsb'_toNat, Nat.shiftRight_eq_div_pow]
  omega

theorem toNat_cursorMsel (c : Word) : (cursorMsel c).toNat = c.toNat / 2 ^ 14 % 2 := by
  rw [cursorMsel, BitVec.extractLsb'_toNat, Nat.shiftRight_eq_div_pow]

theorem toNat_cursorWaddr (c : Word) : (cursorWaddr c).toNat = c.toNat % 2 ^ 14 := by
  rw [cursorWaddr, BitVec.extractLsb'_toNat, Nat.shiftRight_zero]

/-- An increment that stays within `WADDR` carries into no other field (rule R111). -/
theorem cursor_add {c : Word} {n : ℕ} (h : (cursorWaddr c).toNat + n < 2 ^ 14) :
    cursorChan (c + BitVec.ofNat 32 n) = cursorChan c ∧ cursorMsel (c + BitVec.ofNat 32 n) = cursorMsel c ∧
    (cursorWaddr (c + BitVec.ofNat 32 n)).toNat = (cursorWaddr c).toNat + n := by
  have hc : c.toNat < 2 ^ 32 := c.isLt
  rw [toNat_cursorWaddr] at h
  have hadd : (c + BitVec.ofNat 32 n).toNat = c.toNat + n := by
    rw [BitVec.toNat_add, BitVec.toNat_ofNat]
    omega
  refine ⟨BitVec.eq_of_toNat_eq ?_, BitVec.eq_of_toNat_eq ?_, ?_⟩
  · rw [toNat_cursorChan, toNat_cursorChan, hadd]; omega
  · rw [toNat_cursorMsel, toNat_cursorMsel, hadd]; omega
  · rw [toNat_cursorWaddr, toNat_cursorWaddr, hadd]; omega

/-- `CURSOR >> 15` is the channel (rules R21, R201). -/
theorem shiftRight_eq_zero_iff_cursorChan (c : Word) : c >>> 15 = 0#32 ↔ cursorChan c = 0#17 := by
  rw [← BitVec.toNat_inj, ← BitVec.toNat_inj, BitVec.toNat_ushiftRight, toNat_cursorChan, Nat.shiftRight_eq_div_pow]
  rfl

end Sys2Proof

namespace Sys2Proof.Machine

/-! Memories -/

/-- The words `vs` written one after another from word `a` on. -/
def Memory.writeBurst : Memory → ℕ → List Word → Memory
  | m, _, [] => m
  | m, a, v :: vs => Memory.writeBurst (Memory.write m a v) (a + 1) vs

theorem Memory.read_writeBurst_outside {m : Memory} {a b : ℕ} {vs : List Word} (h : b < a ∨ a + vs.length ≤ b) :
    Memory.read (Memory.writeBurst m a vs) b = Memory.read m b := by
  induction vs generalizing m a with
  | nil => rfl
  | cons v vs ih =>
    rw [List.length_cons] at h
    rw [Memory.writeBurst, ih (by omega), Memory.read_write_other m v (by omega)]

theorem Memory.read_writeBurst_inside {m : Memory} {a k : ℕ} {vs : List Word} (h : k < vs.length) :
    Memory.read (Memory.writeBurst m a vs) (a + k) = .value vs[k] := by
  induction vs generalizing m a k with
  | nil => cases h
  | cons v vs ih =>
    rw [Memory.writeBurst]
    cases k with
    | zero => rw [Memory.read_writeBurst_outside (by omega)]; exact Memory.read_write_self m a v
    | succ k =>
      rw [show a + (k + 1) = a + 1 + k by omega]
      exact ih (Nat.lt_of_succ_lt_succ h)

/-! The state after data writes -/

/-- The state after data writes under the cursor `cur`: its bit 14 names the memory, and the cursor and `pc` move on by
the number of words (rules R76, R104, R111). -/
def State.burst (s : State) (cur : Word) (data : List Word) : State :=
  { s with
    prof :=
      if cursorMsel cur = s.config.profileSel then Memory.writeBurst s.prof (cursorWaddr cur).toNat data else s.prof
    win :=
      if cursorMsel cur = s.config.profileSel then s.win else Memory.writeBurst s.win (cursorWaddr cur).toNat data
    cursor := .value (cur + BitVec.ofNat 32 data.length)
    pc := s.pc + data.length }

section Burst
variable (s : State) (cur : Word) (data : List Word)

@[simp] theorem State.burst_config : (s.burst cur data).config = s.config := rfl
@[simp] theorem State.burst_events : (s.burst cur data).events = s.events := rfl
@[simp] theorem State.burst_pc : (s.burst cur data).pc = s.pc + data.length := rfl
@[simp] theorem State.burst_fault : (s.burst cur data).fault = s.fault := rfl
@[simp] theorem State.burst_cursor : (s.burst cur data).cursor = .value (cur + BitVec.ofNat 32 data.length) := rfl

/-- The memory that the cursor names holds the burst. -/
theorem State.burst_named_memory :
    (if cursorMsel cur = s.config.profileSel then (s.burst cur data).prof else (s.burst cur data).win) =
      Memory.writeBurst (if cursorMsel cur = s.config.profileSel then s.prof else s.win) (cursorWaddr cur).toNat
        data := by
  by_cases hm : cursorMsel cur = s.config.profileSel <;> simp [State.burst, hm]

/-- The other memory keeps its words. -/
theorem State.burst_other_memory :
    if cursorMsel cur = s.config.profileSel then (s.burst cur data).win = s.win
    else (s.burst cur data).prof = s.prof := by
  by_cases hm : cursorMsel cur = s.config.profileSel <;> simp [State.burst, hm]

end Burst

theorem State.burst_nil {s : State} {cur : Word} (h : s.cursor = .value cur) : s.burst cur [] = s := by
  cases s
  simp_all [State.burst, Memory.writeBurst]

/-- A burst is its first write and the burst of the rest, as long as the cursor stays in its memory. -/
theorem State.burst_cons {s : State} {cur v : Word} {vs : List Word} (h : (cursorWaddr cur).toNat + 1 < 2 ^ 14) :
    (s.burst cur [v]).burst (cur + 1#32) vs = s.burst cur (v :: vs) := by
  obtain ⟨-, hmsel, hwaddr⟩ := cursor_add h
  have hcursor : cur + 1#32 + BitVec.ofNat 32 vs.length = cur + BitVec.ofNat 32 (vs.length + 1) := by
    rw [BitVec.ofNat_add, add_assoc, add_comm 1#32]
  by_cases hm : cursorMsel cur = s.config.profileSel <;>
    simp [State.burst, Memory.writeBurst, hmsel, hwaddr, hm, hcursor, add_assoc, add_comm 1]

/-! One data write -/

/-- The meaning of the profile row (rule R105). -/
theorem exec_wrMemDataProf (t : Time) (data : Word) (s : State) :
    exec (.wrMemDataProf t data) s =
      dataWrite (fun s a => s.setProf a data) (encode s.config (.wrMemDataProf t data)) s := rfl

/-- The meaning of the window row (rule R106). -/
theorem exec_wrMemDataWin (t : Time) (data : Word) (s : State) :
    exec (.wrMemDataWin t data) s =
      dataWrite (fun s a => s.setWin a data) (encode s.config (.wrMemDataWin t data)) s := rfl

/-- Settles O13, by the one answer of a data write whose cursor is good. -/
theorem profileWriteStoresWord : Obligations.ProfileWriteStoresWord := by
  intro s t data cur hc
  rw [exec_wrMemDataProf]
  exact ⟨_, dataWrite_next.2 (.inr ⟨cur, hc, rfl⟩), rfl, Memory.read_write_self s.prof _ data,
    fun _ ha => Memory.read_write_other s.prof data ha⟩

/-- Settles O14, by the one answer of a data write whose cursor is good. -/
theorem windowWriteStoresWord : Obligations.WindowWriteStoresWord := by
  intro s t data cur hc
  rw [exec_wrMemDataWin]
  exact ⟨_, dataWrite_next.2 (.inr ⟨cur, hc, rfl⟩), rfl, Memory.read_write_self s.win _ data,
    fun _ ha => Memory.read_write_other s.win data ha⟩

/-- Settles O15: the three cases are those of the cursor check, which comes before everything else in both rows and in
the decoder. -/
theorem dataWriteFaultOrder : Obligations.DataWriteFaultOrder := by
  intro s cause h
  have hc : checkedCursor s.cursor = .error cause := by
    simpa only [checkedCursor_error, ne_eq, shiftRight_eq_zero_iff_cursorChan, cursorWaddr] using h
  refine ⟨fun t data => ?_, fun t data => ?_, fun ev hrun ha => step_of_memData_of_error hrun ha hc⟩
  · rw [exec_wrMemDataProf]; exact dataWrite_next.2 (.inl ⟨cause, hc, rfl⟩)
  · rw [exec_wrMemDataWin]; exact dataWrite_next.2 (.inl ⟨cause, hc, rfl⟩)

/-- The step on a data write under a cursor it can use (rules R76, R101, R104 to R106). -/
theorem step_of_memData_of_ok {s : State} {ev : Event} {cur : Word} (h : willRun s ev)
    (ha : ev.address = s.config.addrMemData) (hc : checkedCursor s.cursor = .ok cur) :
    step s = .next (s.burst cur [ev.data]) := by
  obtain ⟨hw, hf, he⟩ := h
  have hr : s.config.registerAt ev.address = some .memData := by rw [ha]; exact Config.registerAt_addressOf hw .memData
  by_cases hm : cursorMsel cur = s.config.profileSel
  · rw [step_of_decoded hw hf he (decode_of_memData_of_profile hr hc hm), exec_wrMemDataProf]
    refine dataWrite_next.2 (.inr ⟨cur, hc, ?_⟩)
    rw [State.burst, if_pos hm, if_pos hm]; rfl
  · rw [step_of_decoded hw hf he (decode_of_memData_of_window hr hc hm), exec_wrMemDataWin]
    refine dataWrite_next.2 (.inr ⟨cur, hc, ?_⟩)
    rw [State.burst, if_neg hm, if_neg hm]; rfl

/-- A data write that does not fault had a good cursor, and is a burst of one word. -/
theorem burst_of_step_memData {s t : State} {ev : Event} (h : willRun s ev) (ha : ev.address = s.config.addrMemData)
    (hs : step s = .next t) (hf : t.fault = none) :
    ∃ cur, checkedCursor s.cursor = .ok cur ∧ t = s.burst cur [ev.data] := by
  cases hc : checkedCursor s.cursor with
  | error cause =>
    rw [step_of_memData_of_error h ha hc] at hs
    cases hs; cases hf
  | ok cur =>
    rw [step_of_memData_of_ok h ha hc] at hs
    cases hs; exact ⟨cur, rfl, rfl⟩

/-- Settles O17: the first cursor was good, so the increment carries into no other field, and the next data write's
cursor is good exactly where its word is below 1024. -/
theorem cursorStaysInItsMemory : Obligations.CursorStaysInItsMemory := by
  intro s t ev hrun ha hs hf
  obtain ⟨cur, hc, rfl⟩ := burst_of_step_memData hrun ha hs hf
  obtain ⟨hcur, hchan, hlt⟩ := checkedCursor_ok.1 hc
  obtain ⟨hchan', hmsel', hwaddr'⟩ := cursor_add (c := cur) (n := 1) (by omega)
  refine ⟨cur, cur + 1#32, hcur, rfl, hchan', hmsel', hwaddr', fun ev' he' ha' => ?_⟩
  have hrun' : willRun (s.burst cur [ev.data]) ev' := ⟨hrun.1, hf, he'⟩
  constructor
  · intro hlast
    exact step_of_memData_of_error hrun' ha'
      (checkedCursor_error.2 (.inr (.inr ⟨_, rfl, hchan'.trans hchan, by rw [List.length_singleton]; omega, rfl⟩)))
  · intro hother
    have hc' : checkedCursor (s.burst cur [ev.data]).cursor = .ok (cur + 1#32) :=
      checkedCursor_ok.2 ⟨rfl, hchan'.trans hchan, by omega⟩
    exact ⟨_, step_of_memData_of_ok hrun' ha' hc', hf⟩

/-! Bursts -/

/-- A run over consecutive data writes is a burst (rule R111). -/
theorem run_burst {s : State} {cur : Word} {data : List Word} (hw : s.config.wf = true) (hf : s.fault = none)
    (hcur : s.cursor = .value cur) (hchan : cursorChan cur = 0#17)
    (hlen : (cursorWaddr cur).toNat + data.length ≤ 1024)
    (hev : ∀ k, (h : k < data.length) →
      ∃ ev, s.events[s.pc + k]? = some ev ∧ ev.address = s.config.addrMemData ∧ ev.data = data[k]) :
    Sys2Proof.core.run data.length s = .next (s.burst cur data) := by
  induction data generalizing s cur with
  | nil => rw [State.burst_nil hcur]; rfl
  | cons v vs ih =>
    rw [List.length_cons] at hlen
    obtain ⟨ev, he, ha, rfl⟩ := hev 0 (by simp)
    have hc : checkedCursor s.cursor = .ok cur := checkedCursor_ok.2 ⟨hcur, hchan, by omega⟩
    have hstep := step_of_memData_of_ok ⟨hw, hf, he⟩ ha hc
    obtain ⟨hchan', -, hwaddr'⟩ := cursor_add (c := cur) (n := 1) (by omega)
    rw [List.length_cons, run_succ_of_next hstep, ← State.burst_cons (vs := vs) (by omega)]
    refine ih hw hf rfl (hchan'.trans hchan) (by omega) fun k hk => ?_
    rw [State.burst_events, State.burst_pc, List.length_singleton, add_assoc, add_comm 1]
    exact hev (k + 1) (Nat.succ_lt_succ hk)

/-- Settles O16: the run is a burst, which is read back word by word. -/
theorem burstStoresConsecutiveWords : Obligations.BurstStoresConsecutiveWords := by
  intro s cur data hw hf hcur hchan hlen hev
  refine ⟨s.burst cur data, run_burst hw hf hcur hchan hlen hev, rfl, fun k hk => ?_, fun a ha => ?_,
    State.burst_other_memory s cur data⟩
  · rw [State.burst_named_memory, Memory.read_writeBurst_inside hk]
  · rw [State.burst_named_memory, Memory.read_writeBurst_outside ha]

/-! A repeated data write -/

/-- A data write after another of the same data: the two are a burst of two words (rules R46, R111). -/
theorem burst_of_repeated_data_write {s t u : State} {ev ev' : Event} (hrun : willRun s ev)
    (ha : ev.address = s.config.addrMemData) (hst : step s = .next t) (ht : t.fault = none)
    (he' : nextEvent t = some ev') (ha' : ev'.address = ev.address) (hd' : ev'.data = ev.data)
    (htu : step t = .next u) (hu : u.fault = none) :
    ∃ cur, checkedCursor s.cursor = .ok cur ∧ t = s.burst cur [ev.data] ∧ u = s.burst cur [ev.data, ev.data] := by
  obtain ⟨cur, hc, rfl⟩ := burst_of_step_memData hrun ha hst ht
  obtain ⟨-, -, hlt⟩ := checkedCursor_ok.1 hc
  have hrun' : willRun (s.burst cur [ev.data]) ev' := ⟨hrun.1, ht, he'⟩
  obtain ⟨cur', hc', rfl⟩ := burst_of_step_memData hrun' (ha'.trans ha) htu hu
  obtain rfl : cur + 1#32 = cur' := Reg.value.inj (eq_value_of_checkedCursor hc')
  exact ⟨cur, hc, rfl, by rw [hd', State.burst_cons (by omega)]⟩

/-- A data operation that does not fault moves the cursor on by one (rule R111). -/
theorem cursor_of_exec_memData {s t : State} {i : Instr} (hi : i.register = .memData) (h : exec i s = .next t)
    (hf : t.fault = none) : ∃ c, s.cursor = .value c ∧ t.cursor = .value (c + 1#32) := by
  rcases exec_cases h with ⟨cause, rfl⟩ | ⟨u, hu, rfl⟩
  · cases hf
  · cases hu with
    | memAddr | cfg0 | cfg1 | cfg2 => cases hi
    | memDataProf t data cur hc => exact ⟨cur, eq_value_of_checkedCursor hc, rfl⟩
    | memDataWin t data cur hc => exact ⟨cur, eq_value_of_checkedCursor hc, rfl⟩

/-! The burst `SETPROF` -/

/-- The word address of word `w` of entry `(o, q)` (rules R23, R75). -/
theorem toNat_entryWaddr (o : BitVec 4) (q : BitVec 5) (w : BitVec 1) :
    (0#4 ++ o ++ q ++ w).toNat = o.toNat * 64 + q.toNat * 2 + w.toNat := by
  rw [BitVec.toNat_append, ← Nat.shiftLeft_add_eq_or_of_lt w.isLt, BitVec.toNat_append,
    ← Nat.shiftLeft_add_eq_or_of_lt q.isLt, BitVec.toNat_append, ← Nat.shiftLeft_add_eq_or_of_lt o.isLt,
    BitVec.toNat_ofNat, Nat.shiftLeft_eq, Nat.shiftLeft_eq, Nat.shiftLeft_eq]
  omega

/-- The fields of the cursor of an entry's first word (rule R75). -/
theorem entryCursor_fields (c : Config) (o : BitVec 4) (q : BitVec 5) :
    cursorChan (entryCursor c o q 0#1) = 0#17 ∧ cursorMsel (entryCursor c o q 0#1) = c.profileSel ∧
    (cursorWaddr (entryCursor c o q 0#1)).toNat = freqAddr o.toNat q := by
  refine ⟨cursorChan_curWord _ _ _, cursorMsel_curWord _ _ _, ?_⟩
  rw [entryCursor, cursorWaddr_curWord]
  exact toNat_entryWaddr o q 0#1

/-- Both words of an entry stand in memory (rules R23, R41). -/
theorem freqAddr_add_two_le (o : BitVec 4) (q : BitVec 5) : freqAddr o.toNat q + 2 ≤ 1024 := by
  have ho : o.toNat < 16 := o.isLt
  have hq : q.toNat < 32 := q.isLt
  rw [freqAddr]
  omega

/-- The data words of `SETPROF` (rule R75). -/
def entryWords (f : ℤ) (a p : BitVec 16) : List Word := [BitVec.ofInt 32 f, ampphWord a p]

/-- The run of a `SETPROF`: the address write sets the cursor to the entry's first word, and the two data writes are a
burst (rule R75). -/
theorem run_setProf {s : State} {t : Time} {o : BitVec 4} {q : BitVec 5} {f : ℤ} {a p : BitVec 16}
    (hw : s.config.wf = true) (hf : s.fault = none)
    (hev : ∀ k, k < 3 → s.events[s.pc + k]? = (setProf s.config t o q f a p)[k]?) :
    Sys2Proof.core.run 3 s = .next ((s.setCursor (entryCursor s.config o q 0#1)).advance.burst
      (entryCursor s.config o q 0#1) (entryWords f a p)) := by
  obtain ⟨hchan, -, hwaddr⟩ := entryCursor_fields s.config o q
  have hstep : step s = .next (s.setCursor (entryCursor s.config o q 0#1)).advance :=
    step_of_memAddr ⟨hw, hf, hev 0 (by omega)⟩ rfl
  refine (run_succ_of_next hstep).trans
    (run_burst (data := entryWords f a p) hw hf rfl hchan (hwaddr ▸ freqAddr_add_two_le o q) fun k hk => ?_)
  obtain rfl | rfl : k = 0 ∨ k = 1 := by simp only [entryWords, List.length_cons, List.length_nil] at hk; omega
  · exact ⟨_, hev 1 (by omega), rfl, rfl⟩
  · exact ⟨_, hev 2 (by omega), rfl, rfl⟩

/-- Settles O58: the burst stands in profile memory, at the entry's two words. -/
theorem setProfProgramsEntry : Obligations.SetProfProgramsEntry := by
  intro s t o q f a p hw hf hev
  obtain ⟨hchan, hmsel, hwaddr⟩ := entryCursor_fields s.config o q
  have hrun := run_setProf hw hf hev
  generalize entryCursor s.config o q 0#1 = cur at hchan hmsel hwaddr hrun
  have hprof : ((s.setCursor cur).advance.burst cur (entryWords f a p)).prof =
      Memory.writeBurst s.prof (freqAddr o.toNat q) (entryWords f a p) := by
    rw [← hwaddr]; exact if_pos hmsel
  have hwin : ((s.setCursor cur).advance.burst cur (entryWords f a p)).win = s.win := if_pos hmsel
  have hend := freqAddr_add_two_le o q
  obtain ⟨hchan', hmsel', hwaddr'⟩ := cursor_add (c := cur) (n := 2) (by omega)
  obtain ⟨hlow, hhigh⟩ := extractLsb'_halves p a
  refine ⟨_, hrun, ?_, ⟨_, rfl, hmsel'.trans hmsel, hchan'.trans hchan, hwaddr'.trans (by rw [hwaddr]; rfl)⟩, ?_,
    ⟨ampphWord a p, ?_, hlow, hhigh⟩, fun b hb hb' => ?_⟩
  · conv_rhs => rw [← hwin]
    rfl
  · rw [hprof]; exact Memory.read_writeBurst_inside (k := 0) (by simp [entryWords])
  · rw [hprof]; exact Memory.read_writeBurst_inside (k := 1) (by simp [entryWords])
  · have hout : b < freqAddr o.toNat q ∨ freqAddr o.toNat q + (entryWords f a p).length ≤ b := by
      simp only [freqAddr, ampphAddr, entryWords, List.length_cons, List.length_nil] at hb hb' ⊢
      omega
    rw [hprof, Memory.read_writeBurst_outside hout]

end Sys2Proof.Machine
end

section
/-! The window interpolator: the length of the cascade, linear interpolation, the gain, and the answers of a
reconstruction (rules R130 to R142, R232). -/

namespace Sys2Proof.Machine

/-! The length of the cascade -/

theorem box_ne_nil {x : List (Cx ℤ)} {rate : ℕ} (hr : 1 ≤ rate) (hx : x ≠ []) : box x rate ≠ [] := by
  have hpos := List.length_pos_iff.2 hx
  rw [← List.length_pos_iff, length_box hx]
  omega

theorem hold_ne_nil {x : List (Cx ℤ)} {rate : ℕ} (hr : 1 ≤ rate) (hx : x ≠ []) : hold x rate ≠ [] := by
  rw [← List.length_pos_iff, length_hold]
  exact Nat.mul_pos (List.length_pos_iff.2 hx) hr

@[simp] theorem cascade_nil (rate order : ℕ) : cascade rate order [] = [] := by
  induction order with
  | zero => rfl
  | succ order ih => rw [cascade_succ, ih, box_nil]

theorem cascade_ne_nil {rate : ℕ} (hr : 1 ≤ rate) (order : ℕ) {y : List (Cx ℤ)} (hy : y ≠ []) :
    cascade rate order y ≠ [] := by
  induction order with
  | zero => exact hy
  | succ order ih => rw [cascade_succ]; exact box_ne_nil hr ih

/-- Each pass adds `rate - 1` elements (rules R135, R137). -/
theorem length_cascade {rate : ℕ} (hr : 1 ≤ rate) (order : ℕ) {y : List (Cx ℤ)} (hy : y ≠ []) :
    (cascade rate order y).length = y.length + order * (rate - 1) := by
  induction order with
  | zero => simp
  | succ order ih =>
    rw [cascade_succ, length_box (cascade_ne_nil hr order hy), ih, Nat.succ_mul]
    omega

/-- The required length, with each pass's part apart (rules R137, R142). -/
theorem required_length_eq {rate : ℕ} (hr : 1 ≤ rate) (n order : ℕ) :
    (n + order) * rate - order = n * rate + order * (rate - 1) := by
  obtain ⟨r, rfl⟩ := Nat.exists_eq_add_of_le' hr
  have hmul : (n + order) * (r + 1) = n * (r + 1) + order * r + order := by ring
  rw [hmul, Nat.add_sub_cancel, Nat.add_sub_cancel]

/-- The windows whose reconstruction has the required length: a sample, or no pass, or rate 1 (rule R139). -/
theorem length_cascade_hold_eq_iff {rate : ℕ} (hr : 1 ≤ rate) (x : List (Cx ℤ)) (order : ℕ) :
    (cascade rate order (hold x rate)).length = (x.length + order) * rate - order ↔
      x ≠ [] ∨ order = 0 ∨ rate = 1 := by
  rw [required_length_eq hr]
  by_cases hx : x = []
  · subst hx
    simp only [hold_nil, cascade_nil, List.length_nil, Nat.zero_mul, Nat.zero_add, ne_eq, not_true_eq_false, false_or,
      eq_comm (a := 0), Nat.mul_eq_zero]
    omega
  · simp only [length_cascade hr order (hold_ne_nil hr hx), length_hold, ne_eq, hx, not_false_eq_true, true_or]

/-- Settles O35, by the windows whose reconstruction has the required length. -/
theorem lengthCheckFailsOnlyWhenEmpty : Obligations.LengthCheckFailsOnlyWhenEmpty := by
  intro x rate order hr
  have hiff := length_cascade_hold_eq_iff hr x order
  refine ⟨fun hx => hiff.2 (.inl hx), (not_congr hiff).trans ?_⟩
  by_cases hx : x = [] <;> simp only [hx, ne_eq, not_true_eq_false, not_false_eq_true, true_or, false_or, true_and,
    false_and]
  omega

/-! Linear interpolation -/

/-- The sample before sample `k`, or 0 before the first (rule R140). -/
def previousSample (x : List (Cx ℤ)) (k : ℕ) : Cx ℤ := if k = 0 then cxZero else x.getD (k - 1) cxZero

theorem getD_hold {rate : ℕ} (hr : 0 < rate) (x : List (Cx ℤ)) (k : ℕ) :
    (hold x rate).getD k cxZero = x.getD (k / rate) cxZero := by
  rw [List.getD_eq_getElem?_getD, List.getD_eq_getElem?_getD, getElem?_hold hr]

/-- The taps of one pass over the hold: the first `r + 1` reach sample `k`, the others the sample before it. -/
theorem tap_hold {rate r j : ℕ} (hr : r < rate) (hj : j < rate) (x : List (Cx ℤ)) (k : ℕ) :
    tap (hold x rate) (k * rate + r) j = if j ≤ r then x.getD k cxZero else previousSample x k := by
  have hpos : 0 < rate := by omega
  by_cases hjr : j ≤ r
  · have hdiv : (k * rate + r - j) / rate = k :=
      Nat.div_eq_of_lt_le (by omega) (by rw [Nat.succ_mul]; omega)
    rw [tap, if_pos (by omega), if_pos hjr, getD_hold hpos, hdiv]
  · rw [if_neg hjr, previousSample]
    cases k with
    | zero => rw [tap, if_neg (by omega), if_pos rfl]
    | succ k =>
      have hmul : (k + 1) * rate = k * rate + rate := Nat.succ_mul k rate
      have hdiv : ((k + 1) * rate + r - j) / rate = k := Nat.div_eq_of_lt_le (by omega) (by rw [Nat.succ_mul]; omega)
      rw [tap, if_pos (by omega), if_neg (Nat.succ_ne_zero k), getD_hold hpos, hdiv, Nat.add_sub_cancel]

/-- A sum over `rate` taps of which the first `r + 1` are `a` and the others `b`. -/
theorem sum_range_ite_le {rate r : ℕ} (hr : r < rate) (a b : ℤ) :
    ∑ j ∈ Finset.range rate, (if j ≤ r then a else b) = ((r : ℤ) + 1) * a + ((rate : ℤ) - 1 - r) * b := by
  obtain ⟨d, rfl⟩ := Nat.exists_eq_add_of_lt hr
  have hlow : ∀ j ∈ Finset.range (r + 1), (if j ≤ r then a else b) = a := fun j hj =>
    if_pos (Nat.le_of_lt_succ (Finset.mem_range.1 hj))
  have hhigh : ∀ j ∈ Finset.range d, (if r + 1 + j ≤ r then a else b) = b := fun j _ => if_neg (by omega)
  rw [show r + d + 1 = r + 1 + d by omega, Finset.sum_range_add, Finset.sum_congr rfl hlow, Finset.sum_congr rfl hhigh,
    Finset.sum_const, Finset.sum_const, Finset.card_range, Finset.card_range, nsmul_eq_mul, nsmul_eq_mul]
  push_cast
  ring

/-- One pass over the hold, element by element: `r + 1` parts of sample `k` and the rest of the sample before it. -/
theorem getElem?_box_hold {x : List (Cx ℤ)} {rate k r : ℕ} (hx : x ≠ []) (hr : r < rate)
    (hm : k * rate + r < x.length * rate + rate - 1) :
    (box (hold x rate) rate)[k * rate + r]? = some
      ⟨((r : ℤ) + 1) * (x.getD k cxZero).re + ((rate : ℤ) - 1 - r) * (previousSample x k).re,
       ((r : ℤ) + 1) * (x.getD k cxZero).im + ((rate : ℤ) - 1 - r) * (previousSample x k).im⟩ := by
  have htap : ∀ j ∈ Finset.range rate, tap (hold x rate) (k * rate + r) j =
      if j ≤ r then x.getD k cxZero else previousSample x k := fun j hj => tap_hold hr (Finset.mem_range.1 hj) x k
  rw [getElem?_box (hold_ne_nil (by omega) hx) (by rw [length_hold]; exact hm),
    Finset.sum_congr rfl fun j hj => congrArg Cx.re (htap j hj),
    Finset.sum_congr rfl fun j hj => congrArg Cx.im (htap j hj)]
  simp only [apply_ite Cx.re, apply_ite Cx.im, sum_range_ite_le hr]

/-- Settles O36, by the elements of one pass over the hold; past the last sample the hold gives 0. -/
theorem orderOneIsLinearInterpolation : Obligations.OrderOneIsLinearInterpolation := by
  intro x rate k r hrate hr
  refine ⟨fun hk => ?_, fun hx hlast => ?_⟩
  · have hx : x ≠ [] := List.ne_nil_of_length_pos (by omega)
    have hmul : (k + 1) * rate ≤ x.length * rate := Nat.mul_le_mul_right rate hk
    rw [Nat.succ_mul] at hmul
    rw [cascade_succ, cascade_zero, getElem?_box_hold hx hr (by omega)]
    simp only [previousSample, apply_ite Cx.re, apply_ite Cx.im, cxZero]
  · have hpos : x.length ≠ 0 := (List.length_pos_iff.2 hx).ne'
    rw [cascade_succ, cascade_zero, getElem?_box_hold hx hr (by omega), List.getD_eq_default x cxZero le_rfl,
      previousSample, if_neg hpos]
    simp only [cxZero, mul_zero, zero_add]

/-! The gain -/

/-- Both parts of every element lie between `lo` and `hi`. -/
def partsWithin (lo hi : ℤ) (y : List (Cx ℤ)) : Prop :=
  ∀ z ∈ y, (lo ≤ z.re ∧ z.re ≤ hi) ∧ (lo ≤ z.im ∧ z.im ≤ hi)

theorem partsWithin_hold {lo hi : ℤ} {x : List (Cx ℤ)} (h : partsWithin lo hi x) (rate : ℕ) :
    partsWithin lo hi (hold x rate) := by
  intro z hz
  obtain ⟨w, hw, hzw⟩ := List.mem_flatMap.1 hz
  rw [List.eq_of_mem_replicate hzw]
  exact h w hw

/-- A tap is an element of the list or 0. -/
theorem tap_within {lo hi : ℤ} {x : List (Cx ℤ)} (h : partsWithin lo hi x) (hlo : lo ≤ 0) (hhi : 0 ≤ hi) (m j : ℕ) :
    (lo ≤ (tap x m j).re ∧ (tap x m j).re ≤ hi) ∧ (lo ≤ (tap x m j).im ∧ (tap x m j).im ≤ hi) := by
  rw [tap_eq_ite]
  split
  · next hin =>
    rw [List.getD_eq_getElem x cxZero hin.2]
    exact h _ (List.getElem_mem hin.2)
  · exact ⟨⟨hlo, hhi⟩, hlo, hhi⟩

/-- A sum of `n` numbers between two bounds lies between `n` times the bounds. -/
theorem sum_range_within {lo hi : ℤ} {f : ℕ → ℤ} (h : ∀ j, lo ≤ f j ∧ f j ≤ hi) (n : ℕ) :
    lo * n ≤ ∑ j ∈ Finset.range n, f j ∧ ∑ j ∈ Finset.range n, f j ≤ hi * n := by
  have hlo := Finset.card_nsmul_le_sum (Finset.range n) f lo fun j _ => (h j).1
  have hhi := Finset.sum_le_card_nsmul (Finset.range n) f hi fun j _ => (h j).2
  rw [Finset.card_range, nsmul_eq_mul, mul_comm] at hlo hhi
  exact ⟨hlo, hhi⟩

/-- A pass multiplies the bounds by at most `rate` (rule R141). -/
theorem partsWithin_box {lo hi : ℤ} {x : List (Cx ℤ)} (h : partsWithin lo hi x) (hlo : lo ≤ 0) (hhi : 0 ≤ hi)
    (rate : ℕ) : partsWithin (lo * rate) (hi * rate) (box x rate) := by
  by_cases hx : x = []
  · subst hx; nofun
  · intro z hz
    rw [box_of_ne_nil hx] at hz
    obtain ⟨m, -, rfl⟩ := List.mem_map.1 hz
    rw [cxSum_map_range]
    exact ⟨sum_range_within (fun j => (tap_within h hlo hhi m j).1) rate,
      sum_range_within (fun j => (tap_within h hlo hhi m j).2) rate⟩

theorem partsWithin_cascade {lo hi : ℤ} {y : List (Cx ℤ)} (h : partsWithin lo hi y) (hlo : lo ≤ 0) (hhi : 0 ≤ hi)
    (rate order : ℕ) : partsWithin (lo * rate ^ order) (hi * rate ^ order) (cascade rate order y) := by
  induction order with
  | zero => simpa using h
  | succ order ih =>
    have hgain : (0 : ℤ) ≤ (rate : ℤ) ^ order := by positivity
    rw [cascade_succ, pow_succ, ← mul_assoc, ← mul_assoc]
    exact partsWithin_box ih (mul_nonpos_of_nonpos_of_nonneg hlo hgain) (mul_nonneg hhi hgain) rate

/-- A sample's halves are 16-bit signed (rule R66). -/
theorem partsWithin_samples (words : List Word) : partsWithin (-2 ^ 15) (2 ^ 15 - 1) (words.map sampleOf) := by
  intro z hz
  obtain ⟨w, -, rfl⟩ := List.mem_map.1 hz
  exact ⟨⟨BitVec.le_toInt _, Int.le_sub_one_of_lt BitVec.toInt_lt⟩,
    BitVec.le_toInt _, Int.le_sub_one_of_lt BitVec.toInt_lt⟩

/-- Settles O37, by the bounds of samples, hold and each pass. -/
theorem cascadeStaysWithinGain : Obligations.CascadeStaysWithinGain := fun words rate order _ =>
  partsWithin_cascade (partsWithin_hold (partsWithin_samples words) rate) (by norm_num) (by norm_num) rate order

/-! The answers of a reconstruction -/

theorem one_le_rate (word : Word) : 1 ≤ (headerOf word).rate := Nat.succ_pos _

theorem reconstruct_of_unwritten {win : Memory} {start : BitVec 10} (h : Memory.read win start.toNat = .unwritten) :
    reconstruct win start = .error .unwritten := by
  simp [reconstruct, bind, Except.bind, h]

/-- A sample that cannot be read ends the reconstruction (rules R133, R212). -/
theorem reconstruct_of_readSamples_error {win : Memory} {start : BitVec 10} {word : Word} {cause : Cause}
    (hr : Memory.read win start.toNat = .value word) (hc : checkHeader start.toNat (headerOf word) = .ok ())
    (hs : readSamples win (start.toNat + 1) (headerOf word).length = .error cause) :
    reconstruct win start = .error cause := by
  simp [reconstruct, bind, Except.bind, hr, hc, hs]

/-- Where the samples can be read, the length check alone decides (rules R137, R139). -/
theorem reconstruct_of_readSamples_ok {win : Memory} {start : BitVec 10} {word : Word} {x : List (Cx ℤ)}
    (hr : Memory.read win start.toNat = .value word) (hc : checkHeader start.toNat (headerOf word) = .ok ())
    (hs : readSamples win (start.toNat + 1) (headerOf word).length = .ok x) :
    reconstruct win start =
      if (cascade (headerOf word).rate (headerOf word).order (hold x (headerOf word).rate)).length =
          requiredLength (headerOf word) then
        .ok ((cascade (headerOf word).rate (headerOf word).order (hold x (headerOf word).rate)).map
          (normalise (headerOf word).shift))
      else .error .internalConsistency := by
  simp [reconstruct, bind, Except.bind, pure, Except.pure, hr, hc, hs]

/-- For samples read, the length check is the condition of rule R139 on the header. -/
theorem length_check_iff {word : Word} {x : List (Cx ℤ)} (hx : x.length = (headerOf word).length) :
    (cascade (headerOf word).rate (headerOf word).order (hold x (headerOf word).rate)).length =
        requiredLength (headerOf word) ↔
      1 ≤ (headerOf word).length ∨ (headerOf word).order = 0 ∨ (headerOf word).rate = 1 := by
  rw [requiredLength, ← hx, length_cascade_hold_eq_iff (one_le_rate word), ← List.length_pos_iff]
  rfl

/-- A ready window of consistent length is reconstructed, from samples that can all be read (rules R130, R232). -/
theorem reconstruct_of_ready {win : Memory} {start : BitVec 10} {word : Word} (hready : windowReady win start)
    (hcons : windowConsistent win start) (hr : Memory.read win start.toNat = .value word) :
    ∃ x, readSamples win (start.toNat + 1) (headerOf word).length = .ok x ∧
      (cascade (headerOf word).rate (headerOf word).order (hold x (headerOf word).rate)).length =
        requiredLength (headerOf word) ∧
      reconstruct win start =
        .ok ((cascade (headerOf word).rate (headerOf word).order (hold x (headerOf word).rate)).map
          (normalise (headerOf word).shift)) := by
  obtain ⟨word', hr', hhead, htail, hrsvd, hend, hsamples⟩ := hready
  obtain rfl : word = word' := Reg.value.inj (hr.symm.trans hr')
  have hc : checkHeader start.toNat (headerOf word) = .ok () := checkHeader_ok.2 ⟨hhead, htail, hrsvd, hend⟩
  cases hs : readSamples win (start.toNat + 1) (headerOf word).length with
  | error cause =>
    obtain ⟨-, k, hk, hu⟩ := readSamples_error.1 hs
    have hwritten := hsamples (k + 1) (by omega) hk
    rw [← Nat.add_assoc, Nat.add_right_comm, hu] at hwritten
    exact hwritten.elim
  | ok x =>
    have hlen := (length_check_iff (readSamples_ok.1 hs).1).2 (hcons word hr)
    exact ⟨x, rfl, hlen, by rw [reconstruct_of_readSamples_ok hr hc hs, if_pos hlen]⟩

/-- A window that is reconstructed was ready, and of consistent length (rules R139, R232). -/
theorem ready_of_reconstruct {win : Memory} {start : BitVec 10} {env : List (Cx ℚ)}
    (h : reconstruct win start = .ok env) : windowReady win start ∧ windowConsistent win start := by
  obtain ⟨word, x, hr, hc, hs, hlen, -⟩ := reconstruct_ok.1 h
  obtain ⟨hhead, htail, hrsvd, hend⟩ := checkHeader_ok.1 hc
  obtain ⟨hx, hall⟩ := readSamples_ok.1 hs
  refine ⟨⟨word, hr, hhead, htail, hrsvd, hend, fun k h1 hk => ?_⟩, fun word' hr' => ?_⟩
  · obtain ⟨w, hw, -⟩ := hall (k - 1) (by omega)
    rw [show start.toNat + k = start.toNat + 1 + (k - 1) by omega, hw]
    trivial
  · obtain rfl : word = word' := Reg.value.inj (hr.symm.trans hr')
    exact (length_check_iff hx).1 hlen

/-- Settles O31, by the reconstruction of a ready window. -/
theorem envelopeOfReadyWindow : Obligations.EnvelopeOfReadyWindow := by
  intro win start word hready hcons hr
  obtain ⟨x, hs, hlen, hrec⟩ := reconstruct_of_ready hready hcons hr
  obtain ⟨hx, hall⟩ := readSamples_ok.1 hs
  exact ⟨x, _, hrec, hx, hall, (List.length_map _).trans hlen, fun m => List.getElem?_map⟩

/-- Settles O30, by the stages of a reconstruction in their order. -/
theorem reconstructFaultOrder : Obligations.ReconstructFaultOrder := by
  refine fun win start => ⟨reconstruct_of_unwritten, fun word hr => ⟨reconstruct_of_unmarked hr, fun hhead htail => ?_⟩⟩
  refine ⟨fun hrsvd => ?_, fun hrsvd => ⟨fun hend => ?_, fun hend => ?_⟩⟩
  · exact reconstruct_of_checkHeader_error hr (checkHeader_error.2 (.inr (.inl ⟨hhead, htail, hrsvd, rfl⟩)))
  · exact reconstruct_of_checkHeader_error hr (checkHeader_error.2 (.inr (.inr ⟨hhead, htail, hrsvd, hend, rfl⟩)))
  have hc : checkHeader start.toNat (headerOf word) = .ok () := checkHeader_ok.2 ⟨hhead, htail, hrsvd, hend⟩
  constructor
  · rintro ⟨k, h1, hk, hu⟩
    refine reconstruct_of_readSamples_error hr hc (readSamples_error.2 ⟨rfl, k - 1, by omega, ?_⟩)
    rw [show start.toNat + 1 + (k - 1) = start.toNat + k by omega, hu]
  · intro hempty horder hrate
    have hs : readSamples win (start.toNat + 1) (headerOf word).length = .ok [] := by rw [hempty]; rfl
    rw [reconstruct_of_readSamples_ok hr hc hs, if_neg]
    rw [length_check_iff (by rw [hempty]; rfl)]
    omega

end Sys2Proof.Machine
end

section
/-! The oscillators and the complex multiplier: the lookups, the phases in closed form, the sum of the oscillators term
by term, and the waveform sample by sample (rules R160 to R168, R184 to R187). -/

namespace Sys2Proof.Machine

/-! The lookups -/

section Lookup
variable {sel : Selection} {prof : Memory} {o : Fin 16} {q : BitVec 5} {wa wf : Word}

theorem lookup_of_sel_unwritten (hq : sel[o] = .unwritten) : lookup sel prof o = .error .unwritten := by
  simp only [lookup, bind, Except.bind, hq, readWritten_unwritten]

theorem lookup_of_ampph_unwritten (hq : sel[o] = .value q) (ha : Memory.read prof (ampphAddr o q) = .unwritten) :
    lookup sel prof o = .error .unwritten := by
  simp only [lookup, bind, Except.bind, hq, ha, readWritten_value, readWritten_unwritten]

/-- An amplitude of 0 makes the entry inactive, and its frequency word is not read (rule R161). -/
theorem lookup_of_inactive (hq : sel[o] = .value q) (ha : Memory.read prof (ampphAddr o q) = .value wa)
    (h0 : ampOf wa = 0#16) : lookup sel prof o = .ok none := by
  simp only [lookup, bind, Except.bind, pure, Except.pure, hq, ha, readWritten_value, if_pos h0]

theorem lookup_of_freq_unwritten (hq : sel[o] = .value q) (ha : Memory.read prof (ampphAddr o q) = .value wa)
    (h0 : ampOf wa ≠ 0#16) (hf : Memory.read prof (freqAddr o q) = .unwritten) :
    lookup sel prof o = .error .unwritten := by
  simp only [lookup, bind, Except.bind, hq, ha, hf, readWritten_value, readWritten_unwritten, if_neg h0]

/-- An active entry holds its frequency word and the two halves of its other word (rules R160, R161). -/
theorem lookup_of_active (hq : sel[o] = .value q) (ha : Memory.read prof (ampphAddr o q) = .value wa)
    (h0 : ampOf wa ≠ 0#16) (hf : Memory.read prof (freqAddr o q) = .value wf) :
    lookup sel prof o = .ok (some { freq := wf, amplitude := ampOf wa, phaseOffset := phaseOffsetOf wa }) := by
  simp only [lookup, bind, Except.bind, pure, Except.pure, hq, ha, hf, readWritten_value, if_neg h0]

end Lookup


/-- A lookup answers an entry exactly when items 2 to 4 of rule R232 have been written. -/
theorem oscillatorReady_iff {sel : Selection} {prof : Memory} {o : Fin 16} :
    oscillatorReady sel prof o ↔ ∃ entry, lookup sel prof o = .ok entry := by
  rcases lookup_cases sel prof o with
    ⟨hq, h⟩ | ⟨q, hq, ⟨ha, h⟩ | ⟨wa, ha, ⟨h0, h⟩ | ⟨h0, hfr, h⟩ | ⟨h0, wf, hfr, h⟩⟩⟩ <;>
    simp [oscillatorReady, *, Reg.written]

/-- Where every lookup answers, the active entries come in the oscillators' order (rule R160). -/
theorem lookupAll_of_forall {sel : Selection} {prof : Memory} {entry : Fin 16 → Option Osc}
    (h : ∀ o, lookup sel prof o = .ok (entry o)) (os : List (Fin 16)) :
    lookupAll sel prof os = .ok (os.filterMap entry) := by
  refine lookupAll_ok.2 ⟨os.map entry, by simp [h], ?_⟩
  induction os with
  | nil => rfl
  | cons o os ih => cases he : entry o <;> simp [he, ih]

/-- Where all lookups answer together, each answers (rule R160). -/
theorem lookup_of_lookupAll {sel : Selection} {prof : Memory} {os : List (Fin 16)} {oscs : List Osc}
    (h : lookupAll sel prof os = .ok oscs) {o : Fin 16} (ho : o ∈ os) : ∃ entry, lookup sel prof o = .ok entry := by
  obtain ⟨entries, hall, -⟩ := lookupAll_ok.1 h
  have hmem : lookup sel prof o ∈ entries.map .ok := hall ▸ List.mem_map_of_mem ho
  obtain ⟨entry, -, he⟩ := List.mem_map.1 hmem
  exact ⟨entry, he.symm⟩

theorem mem_oscillators (o : Fin 16) : o ∈ oscillators := List.mem_finRange o

/-- The lookups of a trigger all answer exactly when every oscillator is ready (rules R160, R232). -/
theorem lookupAll_oscillators_iff {sel : Selection} {prof : Memory} :
    (∃ oscs, lookupAll sel prof oscillators = .ok oscs) ↔ ∀ o, oscillatorReady sel prof o := by
  constructor
  · rintro ⟨oscs, h⟩ o
    exact oscillatorReady_iff.2 (lookup_of_lookupAll h (mem_oscillators o))
  · intro h
    choose entry hentry using fun o => oscillatorReady_iff.1 (h o)
    exact ⟨_, lookupAll_of_forall hentry oscillators⟩

/-! The phases -/

/-- The phase of an entry at an absolute sample index (rules R162, R163). -/
def phaseAt (o : Osc) (index : ℤ) : Word :=
  BitVec.ofInt 32 ((o.phaseOffset.toNat : ℤ) * 2 ^ 16 + o.freq.toInt * index)

/-- The accumulator from a phase given as an integer: each next phase is one `f` further (rule R163). -/
theorem phases_ofInt (f : Word) (a : ℤ) (n : ℕ) :
    phases f (BitVec.ofInt 32 a) n = (List.range n).map fun j : ℕ => BitVec.ofInt 32 (a + f.toInt * (j + 1)) := by
  induction n generalizing a with
  | zero => rfl
  | succ n ih =>
    have hnext : BitVec.ofInt 32 a + f = BitVec.ofInt 32 (a + f.toInt) := by rw [BitVec.ofInt_add, BitVec.ofInt_toInt]
    rw [phases, hnext, ih, List.range_succ_eq_map, List.map_cons, List.map_map]
    congr 1
    · simp
    · refine List.map_congr_left fun j _ => congrArg (BitVec.ofInt 32) ?_
      push_cast
      ring

/-- The accumulator starts one step before its first phase (rule R162). -/
theorem phases_phaseInit (o : Osc) (st : ℤ) (n : ℕ) :
    phases o.freq (phaseInit o st) n = (List.range n).map fun j : ℕ => phaseAt o (st + j) := by
  rw [phaseInit, phases_ofInt]
  refine List.map_congr_left fun j _ => congrArg (BitVec.ofInt 32) ?_
  ring

theorem getElem?_phases (o : Osc) (st : ℤ) {n j : ℕ} (hj : j < n) :
    (phases o.freq (phaseInit o st) n)[j]? = some (phaseAt o (st + j)) := by
  rw [phases_phaseInit, List.getElem?_map, List.getElem?_range hj, Option.map_some]

/-- Settles O38, by the phases in closed form. -/
theorem phaseClosedForm : Obligations.PhaseClosedForm := fun o st n =>
  ⟨by rw [phases_phaseInit, List.length_map, List.length_range], fun _ hj => getElem?_phases o st hj⟩

/-- The phase depends on the sample index mod `2^32` alone (rule R167). -/
theorem phaseAt_congr (o : Osc) {i i' : ℤ} (h : i ≡ i' [ZMOD 2 ^ 32]) : phaseAt o i = phaseAt o i' := by
  apply BitVec.eq_of_toNat_eq
  rw [phaseAt, phaseAt, BitVec.toNat_ofInt, BitVec.toNat_ofInt]
  exact congrArg Int.toNat ((h.mul_left _).add_left _)

/-- Settles O39: both phases are in closed form, at indices equal mod `2^32`. -/
theorem phaseDependsOnSampleIndexOnly : Obligations.PhaseDependsOnSampleIndexOnly := by
  intro o st st' n n' j j' hj hj' h
  rw [getElem?_phases o st hj, getElem?_phases o st' hj', phaseAt_congr o h]

/-! The sum of the oscillators -/

/-- One oscillator's contribution at an absolute sample index (rule R165). -/
def contributionAt (index : ℤ) (o : Osc) : CisTerm where
  weight := ⟨(o.amplitude.toNat : ℚ), 0⟩
  phase := phaseAt o index

theorem contributions_eq (st : ℤ) (n : ℕ) (o : Osc) :
    contributions st n o = (List.range n).map fun j : ℕ => [contributionAt (st + j) o] := by
  rw [contributions, phases_phaseInit, List.map_map]
  rfl

/-- Adding the oscillators to sums already taken appends their contributions, sample by sample (rule R166). -/
theorem foldl_contributions (st : ℤ) (n : ℕ) (oscs : List Osc) (g : ℕ → CisSum) :
    oscs.foldl (fun S o => List.zipWith (· ++ ·) S (contributions st n o)) ((List.range n).map g) =
      (List.range n).map fun j : ℕ => g j ++ oscs.map (contributionAt (st + j)) := by
  induction oscs generalizing g with
  | nil => simp
  | cons o oscs ih =>
    rw [List.foldl_cons, contributions_eq, List.zipWith_map, List.zipWith_self, ih]
    simp only [List.append_assoc, List.singleton_append, List.map_cons]

/-- Each sample of the sum lists the oscillators' contributions at its index (rules R160, R166). -/
theorem oscSum_eq (st : ℤ) (n : ℕ) (oscs : List Osc) :
    oscSum st n oscs = (List.range n).map fun j : ℕ => oscs.map (contributionAt (st + j)) := by
  have hzero : List.replicate n ([] : CisSum) = (List.range n).map fun _ => [] := by simp
  rw [oscSum, hzero, foldl_contributions]
  rfl

section Value
variable {K : Type} [Field K] (cis : BitVec 32 → Cx K)

/-- The number of a contribution: the amplitude times the phase's complex number (rule R165). -/
theorem value_contributionAt (index : ℤ) (o : Osc) :
    CisTerm.value cis (contributionAt index o) =
      ⟨(o.amplitude.toNat : K) * (cis (phaseAt o index)).re, (o.amplitude.toNat : K) * (cis (phaseAt o index)).im⟩ := by
  simp [CisTerm.value, contributionAt, cxMul, cxMap]

/-- The number of a sample of the sum, part by part (rules R165, R166). -/
theorem value_contributions (index : ℤ) (oscs : List Osc) :
    CisSum.value cis (oscs.map (contributionAt index)) =
      ⟨(oscs.map fun o => (o.amplitude.toNat : K) * (cis (phaseAt o index)).re).sum,
       (oscs.map fun o => (o.amplitude.toNat : K) * (cis (phaseAt o index)).im).sum⟩ := by
  simp only [CisSum.value, cxSum_eq_sum, List.map_map, Function.comp_def, value_contributionAt]

/-- The numbers of the sum are decided by the numbers of the contributions at each index. -/
theorem oscSum_value_congr (st : ℤ) (n : ℕ) {oscs oscs' : List Osc}
    (h : ∀ index, CisSum.value cis (oscs.map (contributionAt index)) =
      CisSum.value cis (oscs'.map (contributionAt index))) :
    (oscSum st n oscs).map (CisSum.value cis) = (oscSum st n oscs').map (CisSum.value cis) := by
  rw [oscSum_eq, oscSum_eq, List.map_map, List.map_map]
  exact List.map_congr_left fun j _ => h (st + j)

end Value

/-- Settles O40: the lookup stops at the amplitude, and a contribution of amplitude 0 is the number 0. -/
theorem inactiveOscillatorAddsNothing : Obligations.InactiveOscillatorAddsNothing := by
  refine ⟨fun sel prof o q wa => lookup_of_inactive, fun K _ cis st n before after f p => ?_⟩
  refine oscSum_value_congr cis st n fun index => ?_
  rw [value_contributions, value_contributions]
  simp

/-- Settles O41: sums of numbers are the same in every order. -/
theorem oscillatorOrderHasNoEffect : Obligations.OscillatorOrderHasNoEffect := by
  intro K _ cis st n oscs oscs' hperm
  refine oscSum_value_congr cis st n fun index => ?_
  rw [value_contributions, value_contributions, (hperm.map _).sum_eq, (hperm.map _).sum_eq]

/-! The magnitude of the sum -/

/-- The triangle inequality on squared magnitudes. -/
theorem sq_add_sq_le_of_add {u v x y a b : ℝ} (huv : u ^ 2 + v ^ 2 ≤ a ^ 2) (hxy : x ^ 2 + y ^ 2 ≤ b ^ 2) (ha : 0 ≤ a)
    (hb : 0 ≤ b) : (u + x) ^ 2 + (v + y) ^ 2 ≤ (a + b) ^ 2 := by
  have hcross : (u * x + v * y) ^ 2 ≤ (a * b) ^ 2 :=
    calc (u * x + v * y) ^ 2 ≤ (u ^ 2 + v ^ 2) * (x ^ 2 + y ^ 2) := by linarith [sq_nonneg (u * y - v * x)]
      _ ≤ a ^ 2 * b ^ 2 := mul_le_mul huv hxy (by positivity) (by positivity)
      _ = (a * b) ^ 2 := (mul_pow a b 2).symm
  have hle : u * x + v * y ≤ a * b := (le_abs_self _).trans (abs_le_of_sq_le_sq hcross (mul_nonneg ha hb))
  linarith

/-- Each of `n` oscillators adds at most its largest amplitude to the magnitude (rules R64, R165). -/
theorem contributions_magnitude {num : Numerics ℝ} (hnum : num.Reference) (index : ℤ) (oscs : List Osc) :
    (CisSum.value num.cis (oscs.map (contributionAt index))).re ^ 2 +
      (CisSum.value num.cis (oscs.map (contributionAt index))).im ^ 2 ≤ ((oscs.length : ℝ) * 65535) ^ 2 := by
  induction oscs with
  | nil => simp
  | cons o oscs ih =>
    have hterm : ((o.amplitude.toNat : ℝ) * (num.cis (phaseAt o index)).re) ^ 2 +
        ((o.amplitude.toNat : ℝ) * (num.cis (phaseAt o index)).im) ^ 2 ≤ (65535 : ℝ) ^ 2 := by
      have hamp : (o.amplitude.toNat : ℝ) ≤ 65535 := by exact_mod_cast Nat.le_of_lt_succ o.amplitude.isLt
      rw [hnum, mul_pow, mul_pow, ← mul_add, Real.cos_sq_add_sin_sq, mul_one]
      exact pow_le_pow_left₀ (Nat.cast_nonneg _) hamp 2
    have hsum := sq_add_sq_le_of_add hterm ih (by norm_num) (by positivity)
    rw [List.map_cons, CisSum.value_cons, value_contributionAt, List.length_cons]
    refine hsum.trans_eq ?_
    push_cast
    ring

/-- Settles O42: at most 16 oscillators, each of magnitude at most 65535. -/
theorem referenceSumMagnitude : Obligations.ReferenceSumMagnitude := by
  intro num st n oscs hnum hlen p hp
  rw [oscSum_eq] at hp
  obtain ⟨j, -, rfl⟩ := List.mem_map.1 hp
  have hlen' : (oscs.length : ℝ) ≤ 16 := by exact_mod_cast hlen
  refine (contributions_magnitude hnum (st + j) oscs).trans (pow_le_pow_left₀ (by positivity) ?_ 2)
  linarith

/-! The waveform -/

theorem length_oscSum (st : ℤ) (n : ℕ) (oscs : List Osc) : (oscSum st n oscs).length = n := by
  rw [oscSum_eq, List.length_map, List.length_range]

/-- A waveform has one sample for each of the envelope (rules R166, R184). -/
theorem length_waveform (st : ℤ) (oscs : List Osc) (env : List (Cx ℚ)) :
    (waveform st oscs env).length = env.length := by
  rw [waveform, product, List.length_map, List.length_zipWith, length_oscSum, Nat.min_self]

/-- The waveform, sample by sample: the sum at the sample's index, times the envelope, times `2^-31` (rules R184,
R185). -/
theorem waveform_eq_mapIdx (st : ℤ) (oscs : List Osc) (env : List (Cx ℚ)) :
    waveform st oscs env =
      env.mapIdx fun j e => outputSample (CisSum.scaleBy e (oscs.map (contributionAt (st + j)))) := by
  refine List.ext_getElem (by rw [length_waveform, List.length_mapIdx]) fun j h₁ h₂ => ?_
  simp only [waveform, product, oscSum_eq, List.getElem_map, List.getElem_zipWith, List.getElem_range,
    List.getElem_mapIdx]

/-- The number of an output sample (rules R165, R184, R185). -/
theorem value_outputSample {K : Type} [Field K] [CharZero K] (num : Numerics K) (index : ℤ) (oscs : List Osc) (e : Cx ℚ)
    {re im : K} (hvalue : CisSum.value num.cis (oscs.map (contributionAt index)) = ⟨re, im⟩) :
    Sample.value num (outputSample (CisSum.scaleBy e (oscs.map (contributionAt index)))) = num.quantOut
      ⟨(re * (e.re : K) - im * (e.im : K)) / 2 ^ 31, (re * (e.im : K) + im * (e.re : K)) / 2 ^ 31⟩ := by
  rw [Sample.value, outputSample, CisSum.value_scaleBy, CisSum.value_scaleBy, hvalue]
  refine congrArg num.quantOut ?_
  simp only [cxMul, cxMap, Cx.mk.injEq]
  push_cast
  constructor <;> ring

/-- Settles O43, by the waveform sample by sample and the number of each sample. -/
theorem waveformSampleFormula : Obligations.WaveformSampleFormula := by
  intro K _ _ num st oscs env
  refine ⟨length_waveform st oscs env, fun j hj => ?_⟩
  rw [waveform_eq_mapIdx, List.getElem?_map, List.getElem?_mapIdx, List.getElem?_eq_getElem hj, Option.map_some,
    Option.map_some, value_outputSample num (st + j) oscs env[j] (value_contributions num.cis (st + j) oscs)]
  rfl

/-! The example of rule R187 -/

/-- The window of the example: a header of two samples, rate 1, no pass and no scaling, then the two samples. -/
theorem reconstruct_example {win : Memory} (h0 : Memory.read win 0 = .value 0xC0000002#32)
    (h1 : Memory.read win 1 = .value 0x00004000#32) (h2 : Memory.read win 2 = .value 0x00004000#32) :
    reconstruct win 0#10 = .ok [⟨16384, 0⟩, ⟨16384, 0⟩] := by
  have hsample : sampleOf 0x00004000#32 = ⟨16384, 0⟩ := by decide
  have hs : readSamples win 1 2 = .ok [⟨16384, 0⟩, ⟨16384, 0⟩] := by
    simp [readSamples, bind, Except.bind, pure, Except.pure, h1, h2, hsample]
  rw [reconstruct_of_readSamples_ok (start := 0#10) h0 rfl hs, if_pos (by decide)]
  simp [headerOf, normalise, hold]

/-- The one active entry of the example: a quarter turn for each sample, at half the full amplitude. -/
def exampleOsc : Osc := ⟨0x40000000#32, 0x8000#16, 0#16⟩

/-- The oscillators of the example: oscillator 0 is active, the others have amplitude 0. -/
theorem lookupAll_example {prof : Memory} (h0 : Memory.read prof 0 = .value 0x40000000#32)
    (h1 : Memory.read prof 1 = .value 0x00008000#32)
    (hidle : ∀ k, 1 ≤ k → k ≤ 15 → Memory.read prof (64 * k + 1) = .value 0#32) :
    lookupAll (Vector.replicate 16 (.value 0#5)) prof oscillators = .ok [exampleOsc] := by
  have hsel (o : Fin 16) : (Vector.replicate 16 (.value 0#5) : Selection)[o] = .value 0#5 := by simp
  have hentry (o : Fin 16) : lookup (Vector.replicate 16 (.value 0#5)) prof o =
      .ok (if o = 0 then some exampleOsc else none) := by
    by_cases ho : o = 0
    · subst ho
      exact lookup_of_active (hsel 0) h1 (by decide) h0
    · have hpos : o.val ≠ 0 := fun h => ho (Fin.ext h)
      have hread : Memory.read prof (ampphAddr o 0#5) = .value 0#32 := by
        rw [← hidle o.val (by omega) (by omega), ampphAddr, Nat.mul_comm]
        rfl
      rw [if_neg ho]
      exact lookup_of_inactive (hsel o) hread rfl
  rw [lookupAll_of_forall hentry]
  rfl

/-- The number of the example's sum at a sample index (rule R165). -/
theorem value_contributions_example {K : Type} [Field K] (cis : BitVec 32 → Cx K) (index : ℤ) :
    CisSum.value cis ([exampleOsc].map (contributionAt index)) =
      ⟨2 ^ 15 * (cis (phaseAt exampleOsc index)).re, 2 ^ 15 * (cis (phaseAt exampleOsc index)).im⟩ := by
  have hamp : exampleOsc.amplitude.toNat = 2 ^ 15 := by decide
  rw [value_contributions]
  norm_num [hamp]

/-- Settles O44: the two samples are at the phases of sample indices 39 and 40, three quarter turns and none. -/
theorem quarterTurnPulse : Obligations.QuarterTurnPulse := by
  rintro K _ _ num c prof win ⟨hturn0, -, -, hturn3⟩ hexact hratio hp0 hp1 hidle hw0 hw1 hw2
  have hst : sampleTime c 39#64 = .ok 39#64 := sampleTime_eq_ok_iff.2 (by rw [hratio, mul_one])
  refine ⟨_, synthesise_ok.2 ⟨_, _, _, reconstruct_example hw0 hw1 hw2, hst, lookupAll_example hp0 hp1 hidle, rfl⟩,
    rfl, ?_⟩
  have hphase39 : phaseAt exampleOsc 39 = 0xC0000000#32 := by decide
  have hphase40 : phaseAt exampleOsc 40 = 0x00000000#32 := by decide
  have hsum39 := value_contributions_example num.cis 39
  have hsum40 := value_contributions_example num.cis 40
  rw [hphase39, hturn3] at hsum39
  rw [hphase40, hturn0] at hsum40
  rw [Pulse.values, waveform_eq_mapIdx]
  change [Sample.value num (outputSample (CisSum.scaleBy ⟨16384, 0⟩ ([exampleOsc].map (contributionAt 39)))),
    Sample.value num (outputSample (CisSum.scaleBy ⟨16384, 0⟩ ([exampleOsc].map (contributionAt 40))))] = _
  rw [value_outputSample num 39 [exampleOsc] _ hsum39, value_outputSample num 40 [exampleOsc] _ hsum40, hexact, hexact]
  norm_num

end Sys2Proof.Machine
end

section
/-! Profile selection and the trigger: `WR_CFG0`, `WR_CFG1` and `WR_CFG2` (rules R107 to R109, R160, R180 to R190, R206,
R232). -/

namespace Sys2Proof.Machine

/-! The selection table -/

theorem selection_ext {a b : Selection} (h : ∀ o : Fin 16, a[o] = b[o]) : a = b :=
  Vector.ext fun o ho => h ⟨o, ho⟩

/-- The listed oscillators take their fields, lowest first (rules R107 to R109). -/
theorem selectFrom_getElem (sel : Selection) {base k : ℕ} {qs : List (BitVec 5)} (hk : k < qs.length)
    (ho : base + k < 16) : (selectFrom sel base qs)[base + k] = .value qs[k] := by
  have hget := selectFrom_get sel base qs ⟨base + k, ho⟩
  have hin : base ≤ base + k ∧ base + k - base < qs.length := by omega
  rw [dif_pos hin] at hget
  simpa only [Fin.getElem_fin, Nat.add_sub_cancel_left] using hget

/-- An oscillator that is not listed keeps its selection (rules R107 to R109). -/
theorem selectFrom_get_outside (sel : Selection) {base : ℕ} {qs : List (BitVec 5)} {o : Fin 16}
    (ho : ¬(base ≤ o.val ∧ o.val - base < qs.length)) : (selectFrom sel base qs)[o] = sel[o] := by
  rw [selectFrom_get, dif_neg ho]

/-- The table after a selection whose fields are given by their place. -/
theorem selectFrom_map_range_get (sel : Selection) (base n : ℕ) (field : ℕ → BitVec 5) (o : Fin 16) :
    (selectFrom sel base ((List.range n).map field))[o] =
      if base ≤ o.val ∧ o.val - base < n then .value (field (o.val - base)) else sel[o] := by
  rw [selectFrom_get]
  simp

/-- The same selection again changes nothing (rule R46). -/
theorem selectFrom_selectFrom (sel : Selection) (base : ℕ) (qs : List (BitVec 5)) :
    selectFrom (selectFrom sel base qs) base qs = selectFrom sel base qs := by
  refine selection_ext fun o => ?_
  by_cases ho : base ≤ o.val ∧ o.val - base < qs.length
  · rw [selectFrom_get, selectFrom_get, dif_pos ho, dif_pos ho]
  · rw [selectFrom_get_outside _ ho]

/-! The two pure selection registers -/

/-- A selection changes the table and `pc` alone (rules R107, R108). -/
theorem setSel_advance_frame (s : State) (sel : Selection) :
    (s.setSel sel).advance = { s with sel := (s.setSel sel).advance.sel, pc := s.pc + 1 } := rfl

/-- The meaning of `WR_CFG1` (rule R107). -/
theorem exec_wrCfg1 (t : Time) (q4 q5 q6 q7 q8 q9 : BitVec 5) (rsvd : BitVec 2) (s : State) :
    exec (.wrCfg1 t q4 q5 q6 q7 q8 q9 rsvd) s =
      selectWrite 4 [q4, q5, q6, q7, q8, q9] rsvd (encode s.config (.wrCfg1 t q4 q5 q6 q7 q8 q9 rsvd)) s := rfl

/-- The meaning of `WR_CFG2` (rule R108). -/
theorem exec_wrCfg2 (t : Time) (q10 q11 q12 q13 q14 q15 : BitVec 5) (rsvd : BitVec 2) (s : State) :
    exec (.wrCfg2 t q10 q11 q12 q13 q14 q15 rsvd) s =
      selectWrite 10 [q10, q11, q12, q13, q14, q15] rsvd
        (encode s.config (.wrCfg2 t q10 q11 q12 q13 q14 q15 rsvd)) s := rfl

/-- `WR_CFG1` with its reserved bits 0 selects and completes. -/
theorem exec_wrCfg1_zero (t : Time) (q4 q5 q6 q7 q8 q9 : BitVec 5) (s : State) :
    exec (.wrCfg1 t q4 q5 q6 q7 q8 q9 0#2) s =
      .next (s.setSel (selectFrom s.sel 4 [q4, q5, q6, q7, q8, q9])).advance := by
  rw [exec_wrCfg1]
  exact selectWrite_next.2 (.inr ⟨rfl, rfl⟩)

/-- `WR_CFG2` with its reserved bits 0 selects and completes. -/
theorem exec_wrCfg2_zero (t : Time) (q10 q11 q12 q13 q14 q15 : BitVec 5) (s : State) :
    exec (.wrCfg2 t q10 q11 q12 q13 q14 q15 0#2) s =
      .next (s.setSel (selectFrom s.sel 10 [q10, q11, q12, q13, q14, q15])).advance := by
  rw [exec_wrCfg2]
  exact selectWrite_next.2 (.inr ⟨rfl, rfl⟩)

/-- The step on a write of `CFG1` with its reserved bits 0 (rules R101, R107). -/
theorem step_of_cfg1 {s : State} {ev : Event} (h : willRun s ev) (ha : ev.address = s.config.addrCfg1)
    (hrsvd : cfgRsvd ev.data = 0#2) :
    step s = .next (s.setSel (selectFrom s.sel 4 ((List.range 6).map (cfgField ev.data)))).advance := by
  obtain ⟨hw, hf, he⟩ := h
  have hr : s.config.registerAt ev.address = some .cfg1 := by rw [ha]; exact Config.registerAt_addressOf hw .cfg1
  rw [step_of_decoded hw hf he (decode_of_cfg1 hr), hrsvd, exec_wrCfg1_zero]
  rfl

/-- The step on a write of `CFG2` with its reserved bits 0 (rules R101, R108). -/
theorem step_of_cfg2 {s : State} {ev : Event} (h : willRun s ev) (ha : ev.address = s.config.addrCfg2)
    (hrsvd : cfgRsvd ev.data = 0#2) :
    step s = .next (s.setSel (selectFrom s.sel 10 ((List.range 6).map (cfgField ev.data)))).advance := by
  obtain ⟨hw, hf, he⟩ := h
  have hr : s.config.registerAt ev.address = some .cfg2 := by rw [ha]; exact Config.registerAt_addressOf hw .cfg2
  rw [step_of_decoded hw hf he (decode_of_cfg2 hr), hrsvd, exec_wrCfg2_zero]
  rfl

/-- Settles O18, by the table after a selection. -/
theorem cfg1SelectsFourToNine : Obligations.Cfg1SelectsFourToNine := by
  refine ⟨fun s t q4 q5 q6 q7 q8 q9 => ⟨_, exec_wrCfg1_zero t q4 q5 q6 q7 q8 q9 s, setSel_advance_frame s _, ?_⟩,
    fun s ev h ha hrsvd => ⟨_, step_of_cfg1 h ha hrsvd, setSel_advance_frame s _, fun o => ?_⟩⟩
  · have hsel (k : ℕ) (hk : k < 6) :=
      selectFrom_getElem s.sel (base := 4) (qs := [q4, q5, q6, q7, q8, q9]) hk (by omega)
    simp only [State.advance_sel, State.setSel_sel]
    exact ⟨hsel 0 (by omega), hsel 1 (by omega), hsel 2 (by omega), hsel 3 (by omega), hsel 4 (by omega),
      hsel 5 (by omega), fun o ho =>
        selectFrom_get_outside s.sel (by simp only [List.length_cons, List.length_nil]; omega)⟩
  · have hin : (4 ≤ o.val ∧ o.val - 4 < 6) ↔ (4 ≤ o.val ∧ o.val ≤ 9) := by omega
    rw [State.advance_sel, State.setSel_sel, selectFrom_map_range_get]
    simp only [hin, cfgField]

/-- Settles O19, by the table after a selection. -/
theorem cfg2SelectsTenToFifteen : Obligations.Cfg2SelectsTenToFifteen := by
  refine ⟨fun s t q10 q11 q12 q13 q14 q15 =>
      ⟨_, exec_wrCfg2_zero t q10 q11 q12 q13 q14 q15 s, setSel_advance_frame s _, ?_⟩,
    fun s ev h ha hrsvd => ⟨_, step_of_cfg2 h ha hrsvd, setSel_advance_frame s _, fun o => ?_⟩⟩
  · have hsel (k : ℕ) (hk : k < 6) :=
      selectFrom_getElem s.sel (base := 10) (qs := [q10, q11, q12, q13, q14, q15]) hk (by omega)
    simp only [State.advance_sel, State.setSel_sel]
    exact ⟨hsel 0 (by omega), hsel 1 (by omega), hsel 2 (by omega), hsel 3 (by omega), hsel 4 (by omega),
      hsel 5 (by omega), fun o ho => selectFrom_get_outside s.sel (by omega)⟩
  · have hin : (10 ≤ o.val ∧ o.val - 10 < 6) ↔ 10 ≤ o.val := by omega
    rw [State.advance_sel, State.setSel_sel, selectFrom_map_range_get]
    simp only [hin, cfgField]

/-- A configuration operation with a reserved bit set faults before anything else (rule R206). -/
theorem exec_of_reserved {s : State} {i : Instr} (hr : i.register = .cfg0 ∨ i.register = .cfg1 ∨ i.register = .cfg2)
    (hrsvd : cfgRsvd i.data ≠ 0#2) : exec i s = .next (s.setFault .reservedBits (encode s.config i)) := by
  cases i with
  | wrMemAddr | wrMemDataProf | wrMemDataWin => rcases hr with hr | hr | hr <;> cases hr
  | wrCfg0 t start q0 q1 q2 q3 rsvd =>
    obtain ⟨-, -, -, -, -, hfield⟩ := cfg0Word_unpack start q0 q1 q2 q3 rsvd
    rw [Instr.data, hfield] at hrsvd
    exact execWrCfg0_next.2 (.inl ⟨hrsvd, rfl⟩)
  | wrCfg1 t q4 q5 q6 q7 q8 q9 rsvd =>
    obtain ⟨-, -, -, -, -, -, hfield⟩ := cfgWord_unpack q4 q5 q6 q7 q8 q9 rsvd
    rw [Instr.data, hfield] at hrsvd
    rw [exec_wrCfg1]
    exact selectWrite_next.2 (.inl ⟨hrsvd, rfl⟩)
  | wrCfg2 t q10 q11 q12 q13 q14 q15 rsvd =>
    obtain ⟨-, -, -, -, -, -, hfield⟩ := cfgWord_unpack q10 q11 q12 q13 q14 q15 rsvd
    rw [Instr.data, hfield] at hrsvd
    rw [exec_wrCfg2]
    exact selectWrite_next.2 (.inl ⟨hrsvd, rfl⟩)

/-- A write of a configuration register always decodes, to an operation on that register (rules R67 to R69). -/
theorem decode_of_configuration {c : Config} {cursor : Reg 32} {ev : Event} (hw : c.wf = true)
    (ha : ev.address = c.addrCfg0 ∨ ev.address = c.addrCfg1 ∨ ev.address = c.addrCfg2) :
    ∃ i, decode c cursor ev = .ok i ∧ (i.register = .cfg0 ∨ i.register = .cfg1 ∨ i.register = .cfg2) := by
  rcases ha with ha | ha | ha
  · exact ⟨_, decode_of_cfg0 (by rw [ha]; exact Config.registerAt_addressOf hw .cfg0), .inl rfl⟩
  · exact ⟨_, decode_of_cfg1 (by rw [ha]; exact Config.registerAt_addressOf hw .cfg1), .inr (.inl rfl)⟩
  · exact ⟨_, decode_of_cfg2 (by rw [ha]; exact Config.registerAt_addressOf hw .cfg2), .inr (.inr rfl)⟩

/-- Settles O20: the three operations check the reserved bits first. -/
theorem reservedDataBitsFault : Obligations.ReservedDataBitsFault := by
  rintro s ev ⟨hw, hf, he⟩ ha hrsvd
  obtain ⟨i, hd, hr⟩ := decode_of_configuration (cursor := s.cursor) hw ha
  rw [step_of_decoded hw hf he hd, exec_of_reserved hr (by rw [data_of_decode hd]; exact hrsvd), encode_of_decode hd]
  rfl

/-! The trigger -/

/-- A trigger whose synthesis completes selects, emits its result and advances (rules R109, R186, R187). -/
theorem exec_wrCfg0_of_synthesise_ok {s : State} {t : Time} {start : BitVec 10} {q0 q1 q2 q3 : BitVec 5} {p : Pulse}
    (h : synthesise s.config (selectFrom s.sel 0 [q0, q1, q2, q3]) s.prof s.win start t = .ok p) :
    exec (.wrCfg0 t start q0 q1 q2 q3 0#2) s =
      .next ((s.setSel (selectFrom s.sel 0 [q0, q1, q2, q3])).emit p).advance :=
  execWrCfg0_next.2 (.inr (.inr ⟨rfl, p, h, rfl⟩))

/-- A trigger all of whose stages complete, with the selection under any name (rule R187). -/
theorem exec_wrCfg0_of_stages {s : State} {t st : Time} {start : BitVec 10} {q0 q1 q2 q3 : BitVec 5} {sel : Selection}
    {env : List (Cx ℚ)} {oscs : List Osc} (hsel : selectFrom s.sel 0 [q0, q1, q2, q3] = sel)
    (henv : reconstruct s.win start = .ok env) (hst : sampleTime s.config t = .ok st)
    (hoscs : lookupAll sel s.prof oscillators = .ok oscs) :
    exec (.wrCfg0 t start q0 q1 q2 q3 0#2) s =
      .next ((s.setSel sel).emit ⟨st, waveform st.toInt oscs env⟩).advance := by
  subst hsel
  exact exec_wrCfg0_of_synthesise_ok (synthesise_ok.2 ⟨env, st, oscs, henv, hst, hoscs, rfl⟩)

/-- Settles O22: the four fields are the new selection, with which all stages complete. -/
theorem triggerSelectsAndEmits : Obligations.TriggerSelectsAndEmits := by
  constructor
  · intro s t start q0 q1 q2 q3 sel env st oscs hsel henv hst hoscs
    refine exec_wrCfg0_of_stages (selection_ext fun o => ?_) henv hst hoscs
    rw [hsel o]
    by_cases ho : o.val < 4
    · obtain h | h | h | h : o.val = 0 ∨ o.val = 1 ∨ o.val = 2 ∨ o.val = 3 := by omega
      all_goals simp [selectFrom, h]
    · rw [selectFrom_get_outside _ (by simp only [List.length_cons, List.length_nil]; omega), if_neg (by omega),
        if_neg (by omega), if_neg (by omega), if_neg (by omega)]
  · rintro s ev sel env st oscs ⟨hw, hf, he⟩ ha hrsvd hsel henv hst hoscs
    have hr : s.config.registerAt ev.address = some .cfg0 := by rw [ha]; exact Config.registerAt_addressOf hw .cfg0
    have hfields : selectFrom s.sel 0 ((List.range 4).map (cfg0Field ev.data)) = sel := selection_ext fun o => by
      rw [selectFrom_map_range_get, hsel o]
      simp only [Nat.zero_le, Nat.sub_zero, true_and, cfg0Field]
    rw [step_of_decoded hw hf he (decode_of_cfg0 hr), show cfgRsvd ev.data = 0#2 from hrsvd]
    exact exec_wrCfg0_of_stages hfields henv hst hoscs

/-- Settles O23: the three cases are the three stages at which a synthesis faults. -/
theorem triggerFaultOrder : Obligations.TriggerFaultOrder := by
  intro s t start q0 q1 q2 q3 cause h
  have hsyn : synthesise s.config (selectFrom s.sel 0 [q0, q1, q2, q3]) s.prof s.win start t = .error cause := by
    rcases h with henv | ⟨⟨env, henv⟩, hst⟩ | ⟨⟨env, henv⟩, ⟨st, hst⟩, hoscs⟩
    · exact synthesise_error.2 (.inl henv)
    · exact synthesise_error.2 (.inr (.inl ⟨env, henv, hst⟩))
    · exact synthesise_error.2 (.inr (.inr ⟨env, st, henv, hst, hoscs⟩))
  exact exec_wrCfg0_of_synthesise_error hsyn

/-- Settles O24: a ready window is reconstructed, ready oscillators are looked up, and the waveform is as long as the
envelope. -/
theorem readyTriggerCompletes : Obligations.ReadyTriggerCompletes := by
  intro s t st start q0 q1 q2 q3 word hready hcons hr hosc hst
  obtain ⟨env, henv, hlen⟩ : ∃ env, reconstruct s.win start = .ok env ∧
      env.length = requiredLength (headerOf word) := by
    obtain ⟨x, -, hlen, henv⟩ := reconstruct_of_ready hready hcons hr
    exact ⟨_, henv, by rw [List.length_map, hlen]⟩
  obtain ⟨oscs, hoscs⟩ := lookupAll_oscillators_iff.2 hosc
  exact ⟨_, ⟨st, waveform st.toInt oscs env⟩,
    exec_wrCfg0_of_stages rfl henv (sampleTime_eq_ok_iff.2 hst) hoscs, by simp, by simp, rfl,
    (length_waveform st.toInt oscs env).trans hlen⟩

/-- An operation that completes with a longer output is a trigger whose synthesis completed (rules R180, R186). -/
theorem synthesise_of_emits {s s' : State} {t : Time} {start : BitVec 10} {q0 q1 q2 q3 : BitVec 5} {rsvd : BitVec 2}
    (h : exec (.wrCfg0 t start q0 q1 q2 q3 rsvd) s = .next s') (hout : s'.out ≠ s.out) :
    rsvd = 0#2 ∧ ∃ p, synthesise s.config (selectFrom s.sel 0 [q0, q1, q2, q3]) s.prof s.win start t = .ok p := by
  rcases execWrCfg0_next.1 h with ⟨-, rfl⟩ | ⟨-, cause, -, rfl⟩ | ⟨hrsvd, p, hp, -⟩
  · exact absurd rfl hout
  · exact absurd rfl hout
  · exact ⟨hrsvd, p, hp⟩

/-- Settles O25, by the stages of the synthesis that completed. -/
theorem completedTriggerWasReady : Obligations.CompletedTriggerWasReady := by
  intro s s' t start q0 q1 q2 q3 rsvd h hout
  obtain ⟨hrsvd, p, hp⟩ := synthesise_of_emits h hout
  obtain ⟨env, st, oscs, henv, -, hoscs, -⟩ := synthesise_ok.1 hp
  obtain ⟨hready, hcons⟩ := ready_of_reconstruct henv
  exact ⟨hrsvd, hready, hcons, lookupAll_oscillators_iff.1 ⟨oscs, hoscs⟩⟩

/-- Settles O26: a fault leaves everything, and a trigger that completes writes the selection, the output and `pc`. -/
theorem triggerFrame : Obligations.TriggerFrame := by
  intro s s' t start q0 q1 q2 q3 rsvd h
  have hframe : s'.prof = s.prof ∧ s'.win = s.win ∧ s'.cursor = s.cursor ∧
      (∀ o : Fin 16, 4 ≤ o.val → s'.sel[o] = s.sel[o]) ∧ s'.config = s.config ∧ s'.events = s.events := by
    rcases execWrCfg0_next.1 h with ⟨-, rfl⟩ | ⟨-, cause, -, rfl⟩ | ⟨-, p, -, rfl⟩
    · exact ⟨rfl, rfl, rfl, fun _ _ => rfl, rfl, rfl⟩
    · exact ⟨rfl, rfl, rfl, fun _ _ => rfl, rfl, rfl⟩
    · simp only [State.advance_prof, State.advance_win, State.advance_cursor, State.advance_sel, State.advance_config,
        State.advance_events, State.emit_prof, State.emit_win, State.emit_cursor, State.emit_sel, State.emit_config,
        State.emit_events, State.setSel_prof, State.setSel_win, State.setSel_cursor, State.setSel_sel,
        State.setSel_config, State.setSel_events, true_and, and_true]
      intro o ho
      exact selectFrom_get_outside s.sel (by simp only [List.length_cons, List.length_nil]; omega)
  obtain ⟨hprof, hwin, hrest⟩ := hframe
  exact ⟨fun a => by rw [hprof], fun a => by rw [hwin], hprof, hwin, hrest⟩

/-- Settles O60: the lookup's own cases, the lookups in order, and the fault of the trigger's last stage. -/
theorem lookupReadsSelectedEntry : Obligations.LookupReadsSelectedEntry := by
  refine ⟨fun sel prof o => ⟨lookup_of_sel_unwritten, fun q hq => ⟨lookup_of_ampph_unwritten hq, fun wa ha h0 =>
    ⟨lookup_of_freq_unwritten hq ha h0, fun wf hfr => lookup_of_active hq ha h0 hfr⟩⟩⟩,
    fun sel prof entry h => lookupAll_of_forall h oscillators, ?_⟩
  · rintro s t st start q0 q1 q2 q3 env henv hst ⟨o, ho⟩
    cases hoscs : lookupAll (selectFrom s.sel 0 [q0, q1, q2, q3]) s.prof oscillators with
    | ok oscs => exact absurd (lookupAll_oscillators_iff.1 ⟨oscs, hoscs⟩ o) ho
    | error cause =>
      rw [lookupAll_error hoscs] at hoscs
      exact triggerFaultOrder s t start q0 q1 q2 q3 .unwritten (.inr (.inr ⟨⟨env, henv⟩, ⟨st, hst⟩, hoscs⟩))

/-! A result's reads (rules R51, R190) -/

/-- Reading samples depends on the words read alone. -/
theorem readSamples_congr {win win' : Memory} {base n : ℕ}
    (h : ∀ k < n, Memory.read win (base + k) = Memory.read win' (base + k)) :
    readSamples win base n = readSamples win' base n := by
  induction n generalizing base with
  | zero => rfl
  | succ n ih =>
    have hrest : readSamples win (base + 1) n = readSamples win' (base + 1) n := ih fun k hk => by
      rw [show base + 1 + k = base + (k + 1) by omega]
      exact h (k + 1) (by omega)
    rw [readSamples, readSamples, hrest, show Memory.read win base = Memory.read win' base from h 0 (by omega)]

/-- A reconstruction depends on the header and, where there is one, on its samples alone (rule R130). -/
theorem reconstruct_congr {win win' : Memory} {start : BitVec 10}
    (hheader : Memory.read win start.toNat = Memory.read win' start.toNat)
    (hsamples : ∀ word, Memory.read win start.toNat = .value word → ∀ k < (headerOf word).length,
      Memory.read win (start.toNat + 1 + k) = Memory.read win' (start.toNat + 1 + k)) :
    reconstruct win start = reconstruct win' start := by
  cases hr : Memory.read win start.toNat with
  | unwritten =>
    rw [reconstruct_of_unwritten hr, reconstruct_of_unwritten (hheader ▸ hr)]
  | value word =>
    have hr' : Memory.read win' start.toNat = .value word := hheader ▸ hr
    simp only [reconstruct, hr, hr', readWritten_value, bind, Except.bind, readSamples_congr (hsamples word hr)]

/-- A lookup depends on the selection and on the entry's two words alone (rule R160). -/
theorem lookup_congr {sel : Selection} {prof prof' : Memory} {o : Fin 16}
    (hamp : ∀ q, sel[o] = .value q → Memory.read prof (ampphAddr o q) = Memory.read prof' (ampphAddr o q))
    (hfreq : ∀ q, sel[o] = .value q → Memory.read prof (freqAddr o q) = Memory.read prof' (freqAddr o q)) :
    lookup sel prof o = lookup sel prof' o := by
  cases hq : sel[o] with
  | unwritten => rw [lookup_of_sel_unwritten hq, lookup_of_sel_unwritten hq]
  | value q => simp only [lookup, hq, readWritten_value, bind, Except.bind, hamp q hq, hfreq q hq]

theorem lookupAll_congr {sel : Selection} {prof prof' : Memory} {os : List (Fin 16)}
    (h : ∀ o ∈ os, lookup sel prof o = lookup sel prof' o) : lookupAll sel prof os = lookupAll sel prof' os := by
  induction os with
  | nil => rfl
  | cons o os ih =>
    rw [lookupAll, lookupAll, h o List.mem_cons_self, ih fun o' ho' => h o' (List.mem_cons_of_mem o ho')]

section Reads
variable (s : State) (t : Time) (start : BitVec 10) (q0 q1 q2 q3 : BitVec 5) (rsvd : BitVec 2)

theorem header_mem_readsOf : (MemoryName.win, start.toNat) ∈ readsOf s (.wrCfg0 t start q0 q1 q2 q3 rsvd) :=
  List.mem_append_left _ List.mem_cons_self

variable {s start} in
theorem sample_mem_readsOf {word : Word} {k : ℕ} (hr : Memory.read s.win start.toNat = .value word)
    (hk : k < (headerOf word).length) :
    (MemoryName.win, start.toNat + 1 + k) ∈ readsOf s (.wrCfg0 t start q0 q1 q2 q3 rsvd) := by
  simp [readsOf, hr, hk]

variable {s q0 q1 q2 q3} in
/-- Both words of a selected entry are among the words a trigger may read (rule R160). -/
theorem entry_mem_readsOf {o : Fin 16} {q : BitVec 5} (hq : (selectFrom s.sel 0 [q0, q1, q2, q3])[o] = .value q) :
    (MemoryName.prof, freqAddr o q) ∈ readsOf s (.wrCfg0 t start q0 q1 q2 q3 rsvd) ∧
    (MemoryName.prof, ampphAddr o q) ∈ readsOf s (.wrCfg0 t start q0 q1 q2 q3 rsvd) := by
  constructor <;>
    exact List.mem_append_right _ (List.mem_flatMap.2 ⟨o, mem_oscillators o, by simp only [hq]; simp⟩)

end Reads

/-- Settles O27: the reconstruction and each lookup read only words that the states agree on. -/
theorem resultDependsOnlyOnReads : Obligations.ResultDependsOnlyOnReads := by
  intro s s' t start q0 q1 q2 q3 hconfig hsel hwin hprof
  have henv : reconstruct s.win start = reconstruct s'.win start :=
    reconstruct_congr (hwin _ (header_mem_readsOf s t start q0 q1 q2 q3 0#2)) fun word hr k hk =>
      hwin _ (sample_mem_readsOf t q0 q1 q2 q3 0#2 hr hk)
  have hoscs : lookupAll (selectFrom s.sel 0 [q0, q1, q2, q3]) s.prof oscillators =
      lookupAll (selectFrom s.sel 0 [q0, q1, q2, q3]) s'.prof oscillators :=
    lookupAll_congr fun o _ => lookup_congr
      (fun q hq => hprof _ (entry_mem_readsOf t start 0#2 hq).2)
      (fun q hq => hprof _ (entry_mem_readsOf t start 0#2 hq).1)
  rw [synthesise, synthesise, henv, hoscs, hconfig, hsel]

/-! Repeated writes (rule R46) -/

/-- A write of the address register or of a pure selection register that completed, run again, advances and changes
nothing else. -/
theorem Effect.exec_again {s u : State} {i : Instr} (h : Effect s i u)
    (hi : i.register = .memAddr ∨ i.register = .cfg1 ∨ i.register = .cfg2) :
    exec i u.advance = .next u.advance.advance := by
  cases h with
  | memDataProf | memDataWin | cfg0 => rcases hi with hi | hi | hi <;> cases hi
  | memAddr => rfl
  | cfg1 =>
    rw [exec_wrCfg1_zero, State.advance_sel, State.setSel_sel, selectFrom_selectFrom]
    generalize selectFrom s.sel 4 _ = sel
    rfl
  | cfg2 =>
    rw [exec_wrCfg2_zero, State.advance_sel, State.setSel_sel, selectFrom_selectFrom]
    generalize selectFrom s.sel 10 _ = sel
    rfl

/-- A trigger that completed, run again, emits the same result again: it reads nothing that it changed (rule R190). -/
theorem Effect.trigger_again {s u : State} {i : Instr} (h : Effect s i u) (hi : i.register = .cfg0) :
    ∃ p, u.out = s.out ++ [p] ∧ exec i u.advance = .next (u.emit p).advance.advance := by
  cases h with
  | memAddr | memDataProf | memDataWin | cfg1 | cfg2 => cases hi
  | cfg0 t start q0 q1 q2 q3 p hp =>
    have hidem := selectFrom_selectFrom s.sel 0 [q0, q1, q2, q3]
    generalize selectFrom s.sel 0 [q0, q1, q2, q3] = sel at hp hidem ⊢
    have hp' : synthesise s.config (selectFrom sel 0 [q0, q1, q2, q3]) s.prof s.win start t = .ok p := by
      rw [hidem]; exact hp
    have hexec := exec_wrCfg0_of_synthesise_ok (s := ((s.setSel sel).emit p).advance) hp'
    rw [State.advance_sel, State.emit_sel, State.setSel_sel, hidem] at hexec
    exact ⟨p, rfl, hexec⟩

/-- An operation that ends without a fault had its effect. -/
theorem effect_of_exec {s t : State} {i : Instr} (h : exec i s = .next t) (hf : t.fault = none) :
    ∃ u, Effect s i u ∧ t = u.advance := by
  rcases exec_cases h with ⟨cause, rfl⟩ | hu
  · cases hf
  · exact hu

/-- Settles O21, clause by clause: the writes that set what is set already, the data write as a burst of two words and
as an operation, and the trigger that emits again. -/
theorem repeatedWrites : Obligations.RepeatedWrites := by
  refine ⟨fun s t i hi _ h hf => ?_, fun s t u ev ev' hrun ha hst ht he' ha' hd' htu hu => ?_,
    fun s t u i hi _ hst ht htu hu => ?_, fun s t u i hi _ hst ht htu => ?_⟩
  · obtain ⟨u, hu, rfl⟩ := effect_of_exec h hf
    exact hu.exec_again hi
  · obtain ⟨cur, hc, rfl, rfl⟩ := burst_of_repeated_data_write hrun ha hst ht he' ha' hd' htu hu
    have hnamed := State.burst_named_memory s cur
    refine ⟨cur, eq_value_of_checkedCursor hc, rfl, rfl, ?_, ?_, ?_, fun a hne hne' => ?_,
      State.burst_other_memory s cur _⟩
    · rw [hnamed]; exact Memory.read_writeBurst_inside (k := 0) (by simp)
    · rw [hnamed]; exact Memory.read_writeBurst_inside (k := 0) (by simp)
    · rw [hnamed]; exact Memory.read_writeBurst_inside (k := 1) (by simp)
    · rw [hnamed]
      exact Memory.read_writeBurst_outside (by simp only [List.length_cons, List.length_nil]; omega)
  · obtain ⟨c, hs, ht'⟩ := cursor_of_exec_memData hi hst ht
    obtain ⟨d, hd, hu'⟩ := cursor_of_exec_memData hi htu hu
    obtain rfl : c + 1#32 = d := Reg.value.inj (ht'.symm.trans hd)
    exact ⟨c, hs, ht', by rw [hu', add_assoc]; rfl⟩
  · obtain ⟨v, hv, rfl⟩ := effect_of_exec hst ht
    obtain ⟨p, hout, hagain⟩ := hv.trigger_again hi
    cases hagain.symm.trans htu
    exact ⟨ht, p, hout, by simp⟩

end Sys2Proof.Machine
end

section
/-! Whole runs: a run either processes all its events or stops at its first fault, and it does not depend on the order
in which events of distinct times were recorded (rules R16, R100, R209, R210, R219). -/

namespace Sys2Proof.Machine

/-! The recording order -/

/-- Two ascending lists of the same events at distinct times are equal (rule R100). -/
theorem replayOrder_eq_of_perm {events events' : List Event} (h : events.Perm events')
    (hnodup : (events.map Event.time).Nodup) : replayOrder events = replayOrder events' := by
  refine List.Perm.eq_of_pairwise (fun a b ha hb hab hba => ?_) (replayOrder_ascending events)
    (replayOrder_ascending events') ((replayOrder_perm events).trans (h.trans (replayOrder_perm events').symm))
  have htime : a.time = b.time := BitVec.toInt_inj.1 (le_antisymm hab hba)
  exact List.inj_on_of_nodup_map hnodup ((replayOrder_perm events).mem_iff.1 ha)
    (h.mem_iff.2 ((replayOrder_perm events').mem_iff.1 hb)) htime

/-- Settles O46: the run sees the events in replay order alone, and their number. -/
theorem runIgnoresRecordingOrder : Obligations.RunIgnoresRecordingOrder := by
  intro c events events' h hnodup
  rw [replay, replay, start, start, replayOrder_eq_of_perm h hnodup, h.length_eq]

/-! Runs step by step -/

/-- A run whose first steps answer a next state goes on from there. -/
theorem run_add_of_next {n m : ℕ} {s t : State} (h : Sys2Proof.core.run n s = .next t) :
    Sys2Proof.core.run (n + m) s = Sys2Proof.core.run m t := by
  induction n generalizing s with
  | zero => cases h; rw [Nat.zero_add]
  | succ n ih =>
    rw [Nat.add_right_comm]
    cases hs : step s with
    | next u =>
      rw [run_succ_of_next hs] at h ⊢
      exact ih h
    | fault r => rw [run_succ_of_fault hs] at h; cases h
    | refused r => rw [run_succ_of_refused hs] at h; cases h

/-- A run that starts without a fault, over the `n` events it has left: it processes them all, or the event `k` places
on is the first to fault (rules R27, R209, R210). -/
theorem run_completes_or_stops {n : ℕ} {s : State} (hw : s.config.wf = true) (hf : s.fault = none)
    (hn : s.pc + n = s.events.length) :
    (∃ t : State, Sys2Proof.core.run n s = .next t ∧ t.config = s.config ∧ t.events = s.events ∧ t.fault = none ∧
      t.pc = s.pc + n) ∨
    (∃ (k : ℕ) (t : State) (ev : Event) (cause : Cause), k < n ∧ Sys2Proof.core.run (k + 1) s = .next t ∧
      t.config = s.config ∧ t.pc = s.pc + k ∧ s.events[s.pc + k]? = some ev ∧
      t.fault = some ⟨cause, ev.time, ev.address, ev.data⟩) := by
  induction n generalizing s with
  | zero => exact .inl ⟨s, rfl, rfl, rfl, hf, rfl⟩
  | succ n ih =>
    obtain ⟨t, ht⟩ := step_answers_next hw hf
    rcases step_next_cases ht with ⟨hnone, -⟩ | ⟨ev, he, ⟨cause, rfl⟩ | ⟨i, u, -, hu, rfl⟩⟩
    · have hend : s.events.length ≤ s.pc := List.getElem?_eq_none_iff.1 hnone
      omega
    · exact .inr ⟨0, _, ev, cause, Nat.succ_pos n, run_succ_of_next ht, rfl, rfl, he, rfl⟩
    · obtain ⟨hconfig, hevents, hpc, hfault⟩ := hu.frame
      have hih := ih (s := u.advance) (by rw [State.advance_config, hconfig, hw])
        (by rw [State.advance_fault, hfault, hf]) (by rw [State.advance_pc, State.advance_events, hpc, hevents]; omega)
      simp only [State.advance_config, State.advance_events, State.advance_pc, hconfig, hevents, hpc,
        Nat.add_right_comm s.pc 1, Nat.add_assoc s.pc _ 1] at hih
      rcases hih with ⟨t, hrun, hrest⟩ | ⟨k, t, ev', cause, hk, hrun, hrest⟩
      · exact .inl ⟨t, (run_succ_of_next ht).trans hrun, hrest⟩
      · exact .inr ⟨k + 1, t, ev', cause, Nat.succ_lt_succ hk, (run_succ_of_next ht).trans hrun, hrest⟩

/-- Settles O48, from the start of the run: one more step holds a completed run's state and is stopped after a fault. -/
theorem runCompletesOrStopsAtFirstFault : Obligations.RunCompletesOrStopsAtFirstFault := by
  intro c events hw
  have hlen : (start c events).events.length = events.length := (replayOrder_perm events).length_eq
  rcases run_completes_or_stops (n := events.length) (s := start c events) hw (start_fault c events)
      (by rw [start_pc, hlen, Nat.zero_add]) with
    ⟨t, hrun, hconfig, hevents, hfault, hpc⟩ | ⟨k, t, ev, cause, hk, hrun, hconfig, hpc, he, hfault⟩
  · rw [start_pc, Nat.zero_add] at hpc
    have hend : nextEvent t = none := List.getElem?_eq_none_iff.2 (by rw [hevents, hlen, hpc])
    have hstep : step t = .next t := step_of_no_event (by rw [hconfig]; exact hw) hfault hend
    refine .inl ⟨t, hrun, hfault, hpc, ?_⟩
    calc replay c events = observe (.next t) :=
          congrArg observe ((run_add_of_next hrun).trans (run_succ_of_next hstep))
      _ = .ok t.out := by simp only [observe, hfault]
  · rw [start_pc, Nat.zero_add] at hpc he
    have hstep := step_of_fault (by rw [hconfig]; exact hw) hfault
    refine .inr ⟨k, t, ev, cause, hrun, hpc, he, hfault, ?_⟩
    rw [replay, show events.length + 1 = k + 1 + (events.length - k - 1 + 1) by omega]
    exact congrArg observe ((run_add_of_next hrun).trans (run_succ_of_fault hstep))

end Sys2Proof.Machine
end
